-- ==== Sys2Proof/Config.lean ====
section
/-!
DEFINITION. The constants of spec/00_scope.md R5 and the parameters of R6.
The parameters are data: the machine takes them as an argument (the field `cfg` of State) and no operation changes
them (spec/10_state.md R20).
-/

namespace Sys2Proof

/-- `WINDOW`: the longest history, in bytes (R5). -/
abbrev window : Nat := 4096

/-- `MIN_MATCH`: the shortest match the packer encodes as a match (R5). -/
abbrev minMatch : Nat := 3

/-- `MAX_INPUT`: the largest accepted input length (R5). -/
abbrev maxInput : Nat := 0xFFFFFF

/-- `TAG`: header byte 0 (R5). -/
abbrev tag : Nat := 0x11

/-- `SLOTS`: tokens per block (R5). -/
abbrev slots : Nat := 8

/-- `MF_MIN_DISP`: the `min_displacement` the packer passes to the finder (R5). -/
abbrev mfMinDisp : Nat := 1

/-- The largest legal `MAX_MATCH`, which is the largest `L` the LONG form represents (R6, R77). -/
abbrev maxMatchLimit : Nat := 0x10110

/-- The size of the block buffer `blk_bytes`, in bytes (10_state.md R28). -/
abbrev blockBufferSize : Nat := 32

/-- `HDR_B3_SHIFT`: the two legal values 15 and 16 (R6). -/
inductive HdrShift where
  | s15
  | s16
  deriving DecidableEq, Repr

/-- The shift as a number. -/
def HdrShift.amount : HdrShift → Nat
  | .s15 => 15
  | .s16 => 16

/-- The configuration of one LZE (R6). -/
structure Config where
  /-- `MAX_MATCH`, the lookahead cap. -/
  maxMatch : Nat
  /-- `HDR_B3_SHIFT`, the shift of header byte 3. -/
  hdrB3Shift : HdrShift
  /-- `OUT_CAPACITY`: a number of bytes, or `none` for `INF`. -/
  outCapacity : Option Nat
  deriving DecidableEq, Repr

/-- The defaults R6 gives (each the spec's own choice; log 2). -/
def Config.default : Config :=
  { maxMatch := 0x10110, hdrB3Shift := .s15, outCapacity := none }

/-- A legal configuration: `3 ≤ MAX_MATCH ≤ 0x10110` (R6); the other two parameters are legal by their types. -/
abbrev Config.Legal (c : Config) : Prop :=
  minMatch ≤ c.maxMatch ∧ c.maxMatch ≤ maxMatchLimit

end Sys2Proof
end

