-- ==== Sys2Proof/Word.lean ====
section
/-!
DEFINITION. The byte, the only unit either space of LZE is accessed in (spec/20_memory.md R53).
-/

namespace Sys2Proof

/-- One byte of the input or the output space (R50, R51, R53). -/
abbrev Byte := BitVec 8

end Sys2Proof
end

