-- ==== Sys2Proof/Machine/Memory.lean ====
section
/-!
DEFINITION. A read-only byte space: the input space `IN` of spec/20_memory.md R50, and the byte strings `H` and `A`
a FIND_MATCH command carries (30_encoding.md R86).
The space of size `N` has exactly the offsets `0 … N - 1`. Its contents are a list of (offset, byte) cells in one
canonical form; an offset of the space with no cell reads 0x00, so no cell holds 0x00 (log 4: representation only).
-/

namespace Sys2Proof

/-- A byte string of `size` bytes, held as the cells of its non-zero bytes (R8, R50). -/
structure Memory where
  size  : Nat
  cells : List Host.Cell
  deriving DecidableEq, Repr

namespace Memory

/-- What an offset of the space that no cell lists reads as (log 4). -/
def unlisted : Byte := 0x00

/-- The byte the cells give for offset `a`. -/
def lookup (a : Nat) : List Host.Cell → Byte
  | [] => unlisted
  | (x, b) :: rest => if x = a then b else lookup a rest

/-- The byte at offset `a`, meant for `a < size` (`IN[a]`, R50). -/
def read (m : Memory) (a : Nat) : Byte := lookup a m.cells

/-- `MemRead(a, 1)` (00_scope.md R9): a read requires `a < N`; any other offset does not exist. -/
def read? (m : Memory) (a : Nat) : Option Byte :=
  if a < m.size then some (m.read a) else none

/-- Cells in canonical form from offset `lo` on: strictly rising, inside the space, none equal to `unlisted`. -/
def cellsOk (size : Nat) : Nat → List Host.Cell → Bool
  | _, [] => true
  | lo, (x, b) :: rest => decide (lo ≤ x) && decide (x < size) && decide (b ≠ unlisted) && cellsOk size (x + 1) rest

/-- The canonical form: equal byte strings are equal data. -/
def wf (m : Memory) : Bool := cellsOk m.size 0 m.cells

/-- The cells of a byte string whose first byte stands at offset `a`. -/
def cellsFrom : Nat → List Byte → List Host.Cell
  | _, [] => []
  | a, b :: rest => if b = unlisted then cellsFrom (a + 1) rest else (a, b) :: cellsFrom (a + 1) rest

/-- The space that holds a byte string (R8). -/
def ofBytes (bs : List Byte) : Memory := { size := bs.length, cells := cellsFrom 0 bs }

/-- The space of `n` zero bytes. -/
def zeros (n : Nat) : Memory := { size := n, cells := [] }

/-- The empty byte string. -/
def empty : Memory := zeros 0

/-- The byte string the space holds, in offset order. -/
def toBytes (m : Memory) : List Byte := (List.range m.size).map m.read

end Memory

end Sys2Proof
end

