-- ==== Sys2Proof/Syntax.lean ====
section
/-!
DEFINITION. The instructions of LZE, one constructor per row of spec/opcode_table.json, and the places their bits
stand in: the command port (spec/30_encoding.md R84) and the output stream (R71, R72, R79).
-/

namespace Sys2Proof

/-- One instruction: a host command, or a micro-operation the sequencer runs (00_scope.md R10). -/
inductive Instr where
  /-- ENCODE: compress `IN`, of length `N` (41_token_packer.md R120). -/
  | encode (input : Memory) (n : Nat)
  /-- FIND_MATCH: longest match of `A` against `H` with `min_displacement` `m` (40_match_finder.md R100). -/
  | findMatch (hist look : Memory) (m : Nat)
  /-- HDR: the header of the accepted length `N` (42_container_writer.md R160). -/
  | hdr (n : BitVec 24)
  /-- BLK_FLUSH: write out the block whose flag byte is `f` (R125). -/
  | blkFlush (f : Byte)
  /-- TOK_LITERAL: one literal token, the byte `b` (R128). -/
  | tokLiteral (b : Byte)
  /-- TOK_MATCH: one match token of length `l` and displacement `d` (R129). -/
  | tokMatch (l d : Nat)
  /-- ENC_SHORT: serialize a match with `3 ≤ l ≤ 16` (R130). -/
  | encShort (l d : Nat)
  /-- ENC_MEDIUM: serialize a match with `17 ≤ l ≤ 272` (R131). -/
  | encMedium (l d : Nat)
  /-- ENC_LONG: serialize a match with `273 ≤ l ≤ 0x10110` (R132). -/
  | encLong (l d : Nat)
  deriving DecidableEq, Repr

/-- What the host presents at the command port: a code and the operands; a command reads the operands its row of R84
names (ENCODE: `input` and `n`; FIND_MATCH: `hist`, `look` and `m`). -/
structure HostCommand where
  code  : Byte
  input : Memory
  n     : Nat
  hist  : Memory
  look  : Memory
  m     : Nat
  deriving DecidableEq, Repr

/-- An instruction's bits in the place they stand: what a byte means depends on it (R71, R72, R79, R84). -/
inductive Encoded where
  /-- at the command port -/
  | command (c : HostCommand)
  /-- at output offset 0 -/
  | header (bytes : List Byte)
  /-- at the first byte of a block -/
  | flag (bytes : List Byte)
  /-- at a token whose flag bit is `isMatch` -/
  | token (isMatch : Bool) (bytes : List Byte)
  /-- at the serialized bytes of a match, as the three serializers write them (R130 to R132) -/
  | tier (bytes : List Byte)
  deriving DecidableEq, Repr

/-- The instruction's mnemonic in spec/opcode_table.json. -/
def Instr.mnemonic : Instr → String
  | .encode _ _ => "ENCODE"
  | .findMatch _ _ _ => "FIND_MATCH"
  | .hdr _ => "HDR"
  | .blkFlush _ => "BLK_FLUSH"
  | .tokLiteral _ => "TOK_LITERAL"
  | .tokMatch _ _ => "TOK_MATCH"
  | .encShort _ _ => "ENC_SHORT"
  | .encMedium _ _ => "ENC_MEDIUM"
  | .encLong _ _ => "ENC_LONG"

end Sys2Proof
end

