-- ==== Sys2Proof/Decode.lean ====
section
/-!
DEFINITION. Reading an instruction from its bits, and after it writing the bits of an instruction.
The reader follows spec/30_encoding.md R79 (tokens), R71 (header), R72 (flag byte) and R84 (command codes); the writer
follows the `W` columns of the format tables R71 to R76, a big-endian integer of the format's size (R83).
-/

namespace Sys2Proof

/-- Why bits are no instruction. -/
inductive DecodeError where
  /-- a command code other than `0x01` and `0x02` (R84) -/
  | unknownCommandCode (code : Byte)
  /-- the bytes end inside the instruction -/
  | truncated
  /-- the byte at output offset 0 is not `0x11` (R71) -/
  | badTag (b : Byte)
  /-- at `HDR_B3_SHIFT = 15` header byte 2 bit 7 and byte 3 bit 0 are both `N[15]` (R162), and these differ (log 19) -/
  | headerBitsDisagree
  deriving DecidableEq, Repr

/-- `b[7:4]` (R7). -/
def hiNibble (b : Byte) : Nat := b.toNat / 16

/-- `b[3:0]` (R7). -/
def loNibble (b : Byte) : Nat := b.toNat % 16

/-- The command at the port (R84). The operands are a byte string and numbers, not bits (R100). -/
def decodeCommand (c : HostCommand) : Except DecodeError Instr :=
  if c.code = 0x01 then .ok (.encode c.input c.n)
  else if c.code = 0x02 then .ok (.findMatch c.hist c.look c.m)
  else .error (.unknownCommandCode c.code)

/-- The length the three length bytes stand for (R71, R162): at shift 15, byte 3 is `N[22:15]`, and `N[23]`, which no
byte holds, is read as 0 (log 19). -/
def headerLength (shift : HdrShift) (b1 b2 b3 : Byte) : Except DecodeError (BitVec 24) :=
  match shift with
  | .s16 => .ok (BitVec.ofNat 24 (b1.toNat + 256 * b2.toNat + 65536 * b3.toNat))
  | .s15 =>
    if b3.toNat % 2 = b2.toNat / 128 then
      .ok (BitVec.ofNat 24 (b1.toNat + 256 * b2.toNat + 65536 * (b3.toNat / 2)))
    else .error .headerBitsDisagree

/-- The header at output offset 0 (R71). -/
def decodeHeader (cfg : Config) : List Byte → Except DecodeError (Instr × List Byte)
  | b0 :: b1 :: b2 :: b3 :: rest =>
    if b0.toNat = tag then
      match headerLength cfg.hdrB3Shift b1 b2 b3 with
      | .ok n => .ok (.hdr n, rest)
      | .error e => .error e
    else .error (.badTag b0)
  | b0 :: _ => if b0.toNat = tag then .error .truncated else .error (.badTag b0)
  | [] => .error .truncated

/-- The flag byte of a block (R72): every value is one. -/
def decodeFlag : List Byte → Except DecodeError (Instr × List Byte)
  | f :: rest => .ok (.blkFlush f, rest)
  | [] => .error .truncated

/-- A serialized match: `byte0[7:4]` chooses the tier (R79). -/
def decodeTier : List Byte → Except DecodeError (Instr × List Byte)
  | [] => .error .truncated
  | b0 :: t =>
    if hiNibble b0 = 0 then
      match t with
      | b1 :: b2 :: rest =>
        .ok (.encMedium (loNibble b0 * 16 + hiNibble b1 + 17) (loNibble b1 * 256 + b2.toNat + 1), rest)
      | _ => .error .truncated
    else if hiNibble b0 = 1 then
      match t with
      | b1 :: b2 :: b3 :: rest =>
        .ok (.encLong (loNibble b0 * 4096 + b1.toNat * 16 + hiNibble b2 + 273)
          (loNibble b2 * 256 + b3.toNat + 1), rest)
      | _ => .error .truncated
    else
      match t with
      | b1 :: rest => .ok (.encShort (hiNibble b0 + 1) (loNibble b0 * 256 + b1.toNat + 1), rest)
      | _ => .error .truncated

/-- The token a serialized match makes in its block (R129): its length and displacement, whatever its tier. -/
def asToken : Instr → Instr
  | .encShort l d => .tokMatch l d
  | .encMedium l d => .tokMatch l d
  | .encLong l d => .tokMatch l d
  | i => i

/-- One token, whose flag bit is known (R79). -/
def decodeToken : Bool → List Byte → Except DecodeError (Instr × List Byte)
  | false, b :: rest => .ok (.tokLiteral b, rest)
  | false, [] => .error .truncated
  | true, bytes =>
    match decodeTier bytes with
    | .ok (i, rest) => .ok (asToken i, rest)
    | .error e => .error e

/-- The decoder: the instruction its bits stand for where they stand, and the bytes after it. -/
def decode (cfg : Config) : Encoded → Except DecodeError (Instr × List Byte)
  | .command c =>
    match decodeCommand c with
    | .ok i => .ok (i, [])
    | .error e => .error e
  | .header bytes => decodeHeader cfg bytes
  | .flag bytes => decodeFlag bytes
  | .token isMatch bytes => decodeToken isMatch bytes
  | .tier bytes => decodeTier bytes

/-! The encoder. -/

/-- The `k` bytes of `W`, most significant first (R83). -/
def beBytes : Nat → Nat → List Byte
  | 0, _ => []
  | k + 1, w => BitVec.ofNat 8 (w / 256 ^ k) :: beBytes k w

/-- MATCH_SHORT (R74): `W[15:12] = L - 1`, `W[11:0] = D - 1`. -/
def wordShort (l d : Nat) : Nat := (l - 1) * 2 ^ 12 + (d - 1)

/-- MATCH_MEDIUM (R75): `W[23:20] = 0`, `W[19:12] = L - 17`, `W[11:0] = D - 1`. -/
def wordMedium (l d : Nat) : Nat := (l - 17) * 2 ^ 12 + (d - 1)

/-- MATCH_LONG (R76): `W[31:28] = 1`, `W[27:12] = L - 273`, `W[11:0] = D - 1`. -/
def wordLong (l d : Nat) : Nat := 1 * 2 ^ 28 + (l - 273) * 2 ^ 12 + (d - 1)

/-- HEADER (R71): the tag, `N[7:0]`, `N[15:8]`, `(N >> HDR_B3_SHIFT) & 0xFF`. -/
def wordHeader (shift : HdrShift) (n : Nat) : Nat :=
  tag * 2 ^ 24 + n % 2 ^ 8 * 2 ^ 16 + n / 2 ^ 8 % 2 ^ 8 * 2 ^ 8 + n / 2 ^ shift.amount % 2 ^ 8

/-- The bytes of a match, in the format `Tier(L)` chooses (R77). -/
def matchWordBytes (l d : Nat) : List Byte :=
  if l ≤ 16 then beBytes 2 (wordShort l d)
  else if l ≤ 272 then beBytes 3 (wordMedium l d)
  else beBytes 4 (wordLong l d)

/-- The words of a well-formed instruction (R71 to R76, R84). -/
def encode (cfg : Config) : Instr → List Byte
  | .encode _ _ => [0x01]
  | .findMatch _ _ _ => [0x02]
  | .hdr n => beBytes 4 (wordHeader cfg.hdrB3Shift n.toNat)
  | .blkFlush f => [f]
  | .tokLiteral b => [b]
  | .tokMatch l d => matchWordBytes l d
  | .encShort l d => beBytes 2 (wordShort l d)
  | .encMedium l d => beBytes 3 (wordMedium l d)
  | .encLong l d => beBytes 4 (wordLong l d)

/-- A command with operands the code does not read left empty. -/
def commandOf (code : Byte) : HostCommand :=
  { code := code, input := .empty, n := 0, hist := .empty, look := .empty, m := 0 }

/-- An instruction's words in the place they stand, with `rest` after them where that place is a byte stream. -/
def place (cfg : Config) (i : Instr) (rest : List Byte) : Encoded :=
  match i with
  | .encode input n => .command { commandOf 0x01 with input := input, n := n }
  | .findMatch hist look m => .command { commandOf 0x02 with hist := hist, look := look, m := m }
  | .hdr _ => .header (encode cfg i ++ rest)
  | .blkFlush _ => .flag (encode cfg i ++ rest)
  | .tokLiteral _ => .token false (encode cfg i ++ rest)
  | .tokMatch _ _ => .token true (encode cfg i ++ rest)
  | .encShort _ _ => .tier (encode cfg i ++ rest)
  | .encMedium _ _ => .tier (encode cfg i ++ rest)
  | .encLong _ _ => .tier (encode cfg i ++ rest)

/-- What stands after an instruction in its place: nothing at the command port. -/
def afterInstr (i : Instr) (rest : List Byte) : List Byte :=
  match i with
  | .encode _ _ => []
  | .findMatch _ _ _ => []
  | .hdr _ => rest
  | .blkFlush _ => rest
  | .tokLiteral _ => rest
  | .tokMatch _ _ => rest
  | .encShort _ _ => rest
  | .encMedium _ _ => rest
  | .encLong _ _ => rest

/-- An instruction that is the whole of its bytes. -/
def whole : Except DecodeError (Instr × List Byte) → Option Instr
  | .ok (i, []) => some i
  | .ok (_, _ :: _) => none
  | .error _ => none

/-- The command a bare command code stands for: empty operand strings, `N = 0`, and `m = 1`, the default of the
source's contract (R84, R86; log 18). -/
def bareCommand (code : Byte) : HostCommand := { commandOf code with m := mfMinDisp }

/-- One byte alone: a command code where it is one, else a literal token (log 16). -/
def decodeByteAlone (b : Byte) : Option Instr :=
  match decodeCommand (bareCommand b) with
  | .ok i => some i
  | .error _ => whole (decodeToken false [b])

/-- Four bytes alone: a header where byte 0 is the tag, else a serialized match (log 16). The word does not carry
`HDR_B3_SHIFT`, so header byte 3 is read at the default 15, whatever a state's configuration is: DESIGN CHOICE
(log 16; R162 leaves the shift to the configuration). -/
def decodeFourAlone (bytes : List Byte) : Option Instr :=
  match decodeHeader .default bytes with
  | .error (.badTag _) => whole (decodeTier bytes)
  | r => whole r

/-- The instruction of an opcode-table word, numbered as the table numbers it: `w` is the integer `W` of R71 to R76,
whose byte 0 is its most significant byte (R83; log 16). The table does not say where the word stands, so a width that
several rows share is read as `decodeByteAlone` and `decodeFourAlone` say. -/
def decodeTableWord (nbits w : Nat) : Option Instr :=
  if nbits = 8 then decodeByteAlone (BitVec.ofNat 8 w)
  else if nbits = 16 then whole (decodeTier (beBytes 2 w))
  else if nbits = 24 then whole (decodeTier (beBytes 3 w))
  else if nbits = 32 then decodeFourAlone (beBytes 4 w)
  else none

end Sys2Proof
end

