-- ==== Sys2Proof/Machine/State.lean ====
section
/-!
DEFINITION. The state of one LZE: the record of spec/10_state.md R21, and three fields of the model's own that hold
what R20 calls arguments and operands (the configuration, `IN`) and the host's moves still to come.
-/

namespace Sys2Proof.Machine

/-- The sequencer state (R22). -/
inductive Phase where
  | idle
  | run
  | done
  deriving DecidableEq, Repr

/-- The completion status (R23, 60_exceptions.md R170). -/
inductive Status where
  | success
  | inputTooLarge
  | allocFailure
  | none
  deriving DecidableEq, Repr

/-- What the host can do to the block. -/
inductive HostEvent where
  /-- issue a command (30_encoding.md R84) -/
  | command (c : HostCommand)
  /-- apply reset (70_reset_and_hazards.md R190) -/
  | reset
  /-- fix the configuration (R192 (1), R200) -/
  | configure (cfg : Config)
  deriving DecidableEq, Repr

/-- One move of the host. With `wait`, the host keeps it back while `phase = RUN` (R199); without, it comes at once. -/
structure HostMove where
  wait  : Bool
  event : HostEvent
  deriving DecidableEq, Repr

/-- The state of one LZE instance. -/
structure State where
  /-- `phase` (R22) -/
  phase    : Phase
  /-- `status` (R23) -/
  status   : Status
  /-- `len` (R25) -/
  len      : BitVec 24
  /-- `cursor` (R24) -/
  cursor   : BitVec 24
  /-- `blk_flag` (R26) -/
  blkFlag  : Byte
  /-- `blk_count` (R27) -/
  blkCount : BitVec 4
  /-- `blk_bytes` (R28) -/
  blkBytes : List Byte
  /-- `OUT` (R29) -/
  out      : List Byte
  /-- `mf_len` (R30) -/
  mfLen    : BitVec 17
  /-- `mf_disp` (R30) -/
  mfDisp   : BitVec 13
  /-- the configuration, an argument of the model (R20; log 1) -/
  cfg      : Config
  /-- the operand `IN` of the last accepted ENCODE (R20, R50; log 3) -/
  input    : Memory
  /-- the host's moves still to come, oldest first (log 5) -/
  host     : List HostMove
  deriving DecidableEq, Repr

/-- Why the model stops in a state the spec rules out. Every fault is safe: no run from reset reaches one. -/
inductive Fault where
  /-- A read of `IN[a]` with `a ≥ N`, an offset that does not exist (00_scope.md R9, 20_memory.md R50).
  Raised by TOK_LITERAL and by the TOKEN step's query. Safe (log 13). -/
  | inputReadOutOfRange
  /-- In RUN with `cursor > len` neither TOKEN nor FINISH is enabled (41_token_packer.md R121).
  Raised by the sequencer. Safe (log 13). -/
  | noStepEnabled
  /-- A token for a slot above 7 (10_state.md R27). Raised by TOK_LITERAL and TOK_MATCH. Safe (log 14). -/
  | noFreeSlot
  /-- More than 32 bytes in the block buffer (10_state.md R28).
  Raised by TOK_LITERAL, TOK_MATCH, ENC_SHORT, ENC_MEDIUM and ENC_LONG. Safe (log 14). -/
  | blockBufferFull
  deriving DecidableEq, Repr

/-- Why the model gives no meaning. Every refusal is safe: it claims nothing of the hardware (60_exceptions.md R179). -/
inductive Refusal where
  /-- An instruction that has no meaning yet. Raised by no arm. -/
  | notModelled (mnemonic : String)
  /-- A command while `phase = RUN` (R180 (a)). Raised by ENCODE and FIND_MATCH. Safe. -/
  | commandWhileRunning
  /-- A command code other than `0x01` and `0x02` (R180 (b)). Raised by the command port. Safe. -/
  | unknownCommandCode (code : Byte)
  /-- FIND_MATCH operands outside `|H| ≤ 4096`, `|A| ≤ MAX_MATCH`, `1 ≤ m ≤ 4096` (R180 (c)). Safe. -/
  | findMatchOperands
  /-- ENCODE with `N ≠ |IN|` (R180 (d)). Safe. -/
  | encodeLengthMismatch
  /-- A change of the configuration while an operation is in progress, which the host never makes
  (70_reset_and_hazards.md R195 (5), R200). Raised by the host port. Safe (log 9). -/
  | configureWhileRunning
  /-- A configuration outside the legal values of 00_scope.md R6. Raised by the host port. Safe (log 9). -/
  | illegalConfiguration
  /-- A match outside the ranges of `L` and `D` its micro-operation takes (R129 to R132, 30_encoding.md R77).
  Raised by TOK_MATCH, ENC_SHORT, ENC_MEDIUM and ENC_LONG. Safe (log 10). -/
  | matchOperands
  /-- A flag byte that is not `blk_flag`, or a literal that is not `IN[cursor]`: the table says what these bits are
  (opcode_table.json, BLK_FLUSH and TOK_LITERAL). Raised by BLK_FLUSH and TOK_LITERAL. Safe (log 10). -/
  | bitsNotOfState
  deriving DecidableEq, Repr

/-- The machine right after reset (10_state.md R35), with the default configuration (00_scope.md R6; log 2), no
operand and no host move (logs 3 and 5). -/
def State.reset : State :=
  { phase := .idle, status := .none, len := 0, cursor := 0, blkFlag := 0x00, blkCount := 0, blkBytes := [], out := [],
    mfLen := 0, mfDisp := 0, cfg := .default, input := .empty, host := [] }

end Sys2Proof.Machine
end

