-- ==== Sys2Proof/Machine/Operands.lean ====
section
/-!
DEFINITION. The operand forms: the legal ranges (spec/60_exceptions.md R180, 41_token_packer.md R129 to R132) and the
two views, history and lookahead (10_state.md R31, R32; 30_encoding.md R86).
-/

namespace Sys2Proof.Machine

/-- FIND_MATCH's operands are in their legal ranges (R86, R180 (c)). -/
def findMatchOperandsOk (cfg : Config) (hist look : Memory) (m : Nat) : Bool :=
  decide (hist.size ≤ window) && decide (look.size ≤ cfg.maxMatch) && decide (1 ≤ m) && decide (m ≤ window)

/-- `lo ≤ L ≤ hi` and `1 ≤ D ≤ 4096`: the operands of a serializer (R130 to R132, R74 to R76). -/
def serializerOperandsOk (lo hi l d : Nat) : Bool :=
  decide (lo ≤ l) && decide (l ≤ hi) && decide (1 ≤ d) && decide (d ≤ window)

/-- TOK_MATCH's operands (R129): `3 ≤ L ≤ MAX_MATCH`, `1 ≤ D ≤ min(c, 4096)`, and, since both come from the query of
R126, `L ≤ len - c`; and `L` has a tier (30_encoding.md R77). -/
def tokMatchOperandsOk (s : State) (l d : Nat) : Bool :=
  decide (minMatch ≤ l) && decide (l ≤ s.cfg.maxMatch) && decide (l ≤ maxMatchLimit) &&
    decide (s.cursor.toNat + l ≤ s.len.toNat) && decide (1 ≤ d) && decide (d ≤ min s.cursor.toNat window)

/-- The string `W = H ++ A` of a FIND_MATCH command, by index (R86, R102). -/
def viewOf (hist look : Memory) (j : Nat) : Byte :=
  if j < hist.size then hist.read j else look.read (j - hist.size)

/-- `hstart = max(0, cursor - 4096)` (R31). -/
def historyStart (s : State) : Nat := s.cursor.toNat - window

/-- `|H| = min(cursor, 4096)` (R31). -/
def historyLength (s : State) : Nat := min s.cursor.toNat window

/-- `|A| = min(len - cursor, MAX_MATCH)` (R32). -/
def lookaheadLength (s : State) : Nat := min (s.len.toNat - s.cursor.toNat) s.cfg.maxMatch

/-- `W = H ++ A` of the packer, by index: adjacent slices of `IN` from `hstart` on (R31, R32, R126). -/
def inputView (s : State) (j : Nat) : Byte := s.input.read (historyStart s + j)

end Sys2Proof.Machine
end

