-- ==== Sys2Proof/Machine/Ops.lean ====
section
/-!
DEFINITION. The operations the instructions share: ending an operation with a status (spec/60_exceptions.md R170 to
R177, which stand where other machines take an exception), the append to `OUT` (R172), the append to the block buffer
(10_state.md R28), reading `IN` (20_memory.md R50), and what the host reads (R61, R141).
-/

namespace Sys2Proof.Machine

/-- One step's outcome in this machine. -/
abbrev Result := Host.Outcome State Fault Refusal

/-- Goes on from a next state; a fault or a refusal ends the step. -/
def andThen (r : Result) (f : State → Result) : Result :=
  match r with
  | .next s => f s
  | .fault e => .fault e
  | .refused e => .refused e

/-- Goes on from a next state while the operation is in progress: a failed append has ended it and nothing later of the
step happens ("end operation", R172). -/
def andThenRunning (r : Result) (f : State → Result) : Result :=
  andThen r fun s => if s.phase = .run then f s else .next s

/-- `MemRead(cursor, 1)` (00_scope.md R9, R57). -/
def readAtCursor (s : State) : Option Byte := s.input.read? s.cursor.toNat

/-- The numeric code of a status (R170). -/
def Status.code : Status → Byte
  | .success => 0x00
  | .inputTooLarge => 0x01
  | .allocFailure => 0x02
  | .none => 0xFF

/-- An error ends the operation: `OUT <- []`, the status, `phase <- DONE`; every other register keeps its value
(R171, R172, R175, R176). There is no trap, no saved register and no return from it (R175, R177). -/
def failWith (e : Status) (s : State) : State :=
  { s with out := [], status := e, phase := .done }

/-- Completion with SUCCESS (R170): `status <- SUCCESS`, `phase <- DONE`. -/
def succeed (s : State) : State :=
  { s with status := .success, phase := .done }

/-- Whether `OUT` may hold `n` bytes under `OUT_CAPACITY` (R172). -/
def fits (cfg : Config) (n : Nat) : Bool :=
  match cfg.outCapacity with
  | none => true
  | some capacity => decide (n ≤ capacity)

/-- Whether `OutAppend(S)` succeeds (R172). -/
def hasRoom (bytes : List Byte) (s : State) : Bool := fits s.cfg (s.out.length + bytes.length)

/-- `OutAppend(S)` (R172): the append, or ALLOC_FAILURE. -/
def outAppend (bytes : List Byte) (s : State) : State :=
  if hasRoom bytes s then { s with out := s.out ++ bytes } else failWith .allocFailure s

/-- A new empty block: flag byte cleared, zero tokens (41_token_packer.md R125). -/
def clearBlock (s : State) : State :=
  { s with blkFlag := 0x00, blkCount := 0, blkBytes := [] }

/-- The block as it is written out: its flag byte and then its token bytes (30_encoding.md R72). -/
def blockImage (s : State) : List Byte := s.blkFlag :: s.blkBytes

/-- `Flush()` (R120, R125, R134): appends `blk_flag` and `blk_bytes` and starts a new block; a failed append has ended
the operation and leaves the block as it was. -/
def flush (s : State) : State :=
  if hasRoom (blockImage s) s then clearBlock (outAppend (blockImage s) s) else outAppend (blockImage s) s

/-- `blk_bytes <- blk_bytes ++ S` (R128, R129), within the 32 bytes of the buffer (10_state.md R28). -/
def blkAppend (bytes : List Byte) (s : State) : Result :=
  if s.blkBytes.length + bytes.length ≤ blockBufferSize then .next { s with blkBytes := s.blkBytes ++ bytes }
  else .fault .blockBufferFull

/-- What the host may read of `OUT`: the bytes in DONE with SUCCESS, and otherwise nothing (20_memory.md R61,
70_reset_and_hazards.md R194). -/
def hostReadsOut (s : State) : Option (List Byte) :=
  if s.phase = .done ∧ s.status = .success then some s.out else none

/-- What the host may read of `mf_len` and `mf_disp`: their values in DONE (R61). -/
def hostReadsMatch (s : State) : Option (Nat × Nat) :=
  if s.phase = .done then some (s.mfLen.toNat, s.mfDisp.toNat) else none

/-- The response of an ENCODE (41_token_packer.md R141). -/
inductive Response where
  | success (out : List Byte) (length : Nat)
  | inputTooLarge
  | allocFailure
  deriving DecidableEq, Repr

/-- The response the host observes in DONE (R141); none while an operation runs or before one completed. DESIGN CHOICE
(log 28): it is read from `status` and `OUT` whichever command completed last, so after a FIND_MATCH, whose own response
is `mf_len` and `mf_disp` (R84), it is SUCCESS with the `OUT` that command left. -/
def response (s : State) : Option Response :=
  if s.phase = .done then
    match s.status with
    | .success => some (.success s.out s.out.length)
    | .inputTooLarge => some .inputTooLarge
    | .allocFailure => some .allocFailure
    | .none => none
  else none

end Sys2Proof.Machine
end

