-- ==== Sys2Proof/Machine/MatchFinder.lean ====
section
/-!
DEFINITION. The match finder and its command FIND_MATCH (spec/40_match_finder.md).
`w` is the string `W = H ++ A` by index, `h = |H|`, `a = |A|`; `A[k]` is `w (h + k)`.
-/

namespace Sys2Proof.Machine

/-- The run length of candidate `i` (R102): from `k` on, `n` comparisons left; it stops at the first mismatch or at the
end of the lookahead, not at the end of the history. -/
def runFrom (w : Nat → Byte) (h i : Nat) : Nat → Nat → Nat
  | 0, k => k
  | n + 1, k => if w (i + k) = w (h + k) then runFrom w h i n (k + 1) else k

/-- The scan of `n` candidates from `i` on, with the running best (R102 to R104): a strictly longer run replaces the
best, and the scan stops when the best is the whole lookahead. -/
def scan (w : Nat → Byte) (h a : Nat) : Nat → Nat → Nat × Nat → Nat × Nat
  | 0, _, best => best
  | n + 1, i, best =>
    let k := runFrom w h i a 0
    let best' := if best.1 < k then (k, h - i) else best
    if best'.1 = a then best' else scan w h a n (i + 1) best'

/-- `FindMatch(H, A, m)` (R100): the candidates `i = 0 … |H| - m`, none when `|H| < m` (R110). -/
def findMatch (w : Nat → Byte) (h a m : Nat) : Nat × Nat :=
  if a = 0 then (0, 0) else scan w h a (h + 1 - m) 0 (0, 0)

/-- The finder's answer to a FIND_MATCH command. -/
def commandMatch (hist look : Memory) (m : Nat) : Nat × Nat :=
  findMatch (viewOf hist look) hist.size look.size m

/-- The query of a TOKEN step (41_token_packer.md R126). -/
def packerMatch (s : State) : Nat × Nat :=
  findMatch (inputView s) (historyLength s) (lookaheadLength s) mfMinDisp

/-- FIND_MATCH (R100): `mf_len`, `mf_disp`, `status <- SUCCESS`, `phase <- DONE`; refused in RUN and outside the legal
ranges (60_exceptions.md R180 (a), (c)). -/
def execFindMatch (hist look : Memory) (m : Nat) (s : State) : Result :=
  if s.phase = .run then .refused .commandWhileRunning
  else if findMatchOperandsOk s.cfg hist look m then
    .next (succeed { s with
      mfLen := BitVec.ofNat 17 (commandMatch hist look m).1
      mfDisp := BitVec.ofNat 13 (commandMatch hist look m).2 })
  else .refused .findMatchOperands

end Sys2Proof.Machine
end

