-- ==== Sys2Proof/Machine/ContainerWriter.lean ====
section
/-!
DEFINITION. The container writer: HDR (spec/42_container_writer.md).
-/

namespace Sys2Proof.Machine

/-- `Header(N) = [0x11, N & 0xFF, (N >> 8) & 0xFF, (N >> HDR_B3_SHIFT) & 0xFF]` (R160 to R162). -/
def headerBytes (cfg : Config) (n : Nat) : List Byte :=
  [BitVec.ofNat 8 tag, BitVec.ofNat 8 (n &&& 0xFF), BitVec.ofNat 8 ((n >>> 8) &&& 0xFF),
    BitVec.ofNat 8 ((n >>> cfg.hdrB3Shift.amount) &&& 0xFF)]

/-- HDR: `OutAppend(Header(N))` (R160). -/
def writeHeader (n : BitVec 24) (s : State) : State := outAppend (headerBytes s.cfg n.toNat) s

/-- HDR (R160): its one exception, ALLOC_FAILURE, ends the operation in a next state (60_exceptions.md R172). -/
def execHdr (n : BitVec 24) (s : State) : Result := .next (writeHeader n s)

end Sys2Proof.Machine
end

