-- ==== Sys2Proof/Machine/Flags.lean ====
section
/-!
DEFINITION. The one flag register of LZE, `blk_flag` (spec/10_state.md R26): bit `7 - s` belongs to slot `s`. There are
no condition codes.
-/

namespace Sys2Proof.Machine

/-- The bit of slot `s`: `0x80 >> s` (41_token_packer.md R129). -/
def slotBit (slot : Nat) : Byte := 0x80#8 >>> slot

/-- `blk_flag | (0x80 >> slot)`: slot `slot` holds a match (R129). A literal leaves the bit as it is (R128). -/
def markMatch (flag : Byte) (slot : Nat) : Byte := flag ||| slotBit slot

end Sys2Proof.Machine
end

