-- ==== Sys2Proof/Machine/TokenPacker.lean ====
section
/-!
DEFINITION. The token stream packer: ENCODE's START step and the micro-operations BLK_FLUSH, TOK_LITERAL, TOK_MATCH,
ENC_SHORT, ENC_MEDIUM and ENC_LONG (spec/41_token_packer.md).
-/

namespace Sys2Proof.Machine

/-! The serializers. -/

/-- `EncShort(L, D)` (R130). -/
def shortBytes (l d : Nat) : List Byte :=
  [BitVec.ofNat 8 (((l - 1) <<< 4) ||| ((d - 1) >>> 8)), BitVec.ofNat 8 ((d - 1) &&& 0xFF)]

/-- `EncMedium(L, D)` (R131), with `Lf = (L - 17) mod 256`. -/
def mediumBytes (l d : Nat) : List Byte :=
  let lf := (l - 17) % 256
  [BitVec.ofNat 8 (lf >>> 4), BitVec.ofNat 8 (((lf &&& 0xF) <<< 4) ||| ((d - 1) >>> 8)),
    BitVec.ofNat 8 ((d - 1) &&& 0xFF)]

/-- `EncLong(L, D)` (R132), with `Lf = L - 273`. -/
def longBytes (l d : Nat) : List Byte :=
  let lf := l - 273
  [BitVec.ofNat 8 (0x10 ||| (lf >>> 12)), BitVec.ofNat 8 ((lf >>> 4) &&& 0xFF),
    BitVec.ofNat 8 (((lf &&& 0xF) <<< 4) ||| ((d - 1) >>> 8)), BitVec.ofNat 8 ((d - 1) &&& 0xFF)]

/-- `EncMatch(L, D)` (R129): the tier is chosen by `L` alone (30_encoding.md R77). -/
def matchBytes (l d : Nat) : List Byte :=
  if l ≤ 16 then shortBytes l d else if l ≤ 272 then mediumBytes l d else longBytes l d

/-- A serializer as an instruction: its bytes go into the block's token bytes (R129: "serialize (length, displacement)
into the block's token bytes"); it writes no flag and does not move the cursor (log 12). -/
def serialize (lo hi l d : Nat) (bytes : List Byte) (s : State) : Result :=
  if serializerOperandsOk lo hi l d then blkAppend bytes s else .refused .matchOperands

/-- ENC_SHORT (R130). -/
def execEncShort (l d : Nat) (s : State) : Result := serialize 3 16 l d (shortBytes l d) s

/-- ENC_MEDIUM (R131). -/
def execEncMedium (l d : Nat) (s : State) : Result := serialize 17 272 l d (mediumBytes l d) s

/-- ENC_LONG (R132). -/
def execEncLong (l d : Nat) (s : State) : Result := serialize 273 maxMatchLimit l d (longBytes l d) s

/-! The tokens and the block. -/

/-- TOK_LITERAL (R128): `blk_bytes <- blk_bytes ++ [MemRead(c, 1)]`, `cursor <- c + 1`; the slot's flag bit stays.
The token's byte `b` is the byte read (log 10). -/
def execTokLiteral (b : Byte) (s : State) : Result :=
  match readAtCursor s with
  | none => .fault .inputReadOutOfRange
  | some byte =>
    if b = byte then
      if s.blkCount.toNat < slots then
        andThen (blkAppend [byte] s) fun t => .next { t with cursor := s.cursor + 1 }
      else .fault .noFreeSlot
    else .refused .bitsNotOfState

/-- TOK_MATCH (R129): the flag bit of the slot, the bytes of `EncMatch(L, D)`, `cursor <- c + L`. -/
def execTokMatch (l d : Nat) (s : State) : Result :=
  if tokMatchOperandsOk s l d then
    if s.blkCount.toNat < slots then
      andThen (blkAppend (matchBytes l d) s) fun t =>
        .next { t with
          blkFlag := markMatch s.blkFlag s.blkCount.toNat
          cursor := s.cursor + BitVec.ofNat 24 l }
    else .fault .noFreeSlot
  else .refused .matchOperands

/-- BLK_FLUSH (R125, R134): a block that holds a token is written out and a new one started; a block that holds none is
never written (R81 (f), R134; log 11). The flag byte `f` is `blk_flag` (log 10). -/
def execBlkFlush (f : Byte) (s : State) : Result :=
  if f = s.blkFlag then
    if s.blkCount = 0 then .next s else .next (flush s)
  else .refused .bitsNotOfState

/-! The command. -/

/-- R123: every working register is initialised, `IN` is taken as the operand and RUN is entered, with `OUT` empty; the
header follows. R123 lists `phase <- RUN` after the header; within the one step no one can tell (log 20). -/
def beginEncode (input : Memory) (n : Nat) (s : State) : State :=
  { s with
    len := BitVec.ofNat 24 n, cursor := 0, blkFlag := 0x00, blkCount := 0, blkBytes := [], out := [], phase := .run,
    input := input }

/-- START of an accepted ENCODE (R122, R123). -/
def startEncode (input : Memory) (n : Nat) (s : State) : State :=
  if maxInput < n then failWith .inputTooLarge s
  else writeHeader (BitVec.ofNat 24 n) (beginEncode input n s)

/-- ENCODE (R120, R121): its START step; the sequencer then takes the TOKEN steps and FINISH. Refused in RUN and when
`N ≠ |IN|` (60_exceptions.md R180 (a), (d)). -/
def execEncode (input : Memory) (n : Nat) (s : State) : Result :=
  if s.phase = .run then .refused .commandWhileRunning
  else if n = input.size then .next (startEncode input n s)
  else .refused .encodeLengthMismatch

end Sys2Proof.Machine
end

