-- ==== Sys2Proof/Machine/Dispatch.lean ====
section
/-! DEFINITION. The dispatch: one arm per instruction, each one direct call of its meaning. -/

namespace Sys2Proof.Machine

def exec (i : Instr) (s : State) : Host.Outcome State Fault Refusal :=
  match i with
  | .encode input n => Sys2Proof.Machine.execEncode input n s
  | .findMatch hist look m => Sys2Proof.Machine.execFindMatch hist look m s
  | .hdr n => Sys2Proof.Machine.execHdr n s
  | .blkFlush f => Sys2Proof.Machine.execBlkFlush f s
  | .tokLiteral b => Sys2Proof.Machine.execTokLiteral b s
  | .tokMatch l d => Sys2Proof.Machine.execTokMatch l d s
  | .encShort l d => Sys2Proof.Machine.execEncShort l d s
  | .encMedium l d => Sys2Proof.Machine.execEncMedium l d s
  | .encLong l d => Sys2Proof.Machine.execEncLong l d s

end Sys2Proof.Machine
end

