-- ==== Sys2Proof/Machine/Sequencer.lean ====
section
/-!
DEFINITION. The sequencer: the TOKEN and FINISH steps of spec/41_token_packer.md R121, built of the micro-operations
through `exec`, and the host port (30_encoding.md R84, 60_exceptions.md R178 to R180, 70_reset_and_hazards.md R190,
R199, R200).
-/

namespace Sys2Proof.Machine

/-- R125: at the start of a TOKEN step a full block is flushed. -/
def flushIfFull (s : State) : Result :=
  if s.blkCount.toNat = slots then exec (.blkFlush s.blkFlag) s else .next s

/-- R127: the micro-operation a TOKEN step emits its token by. -/
def selectToken (s : State) : Instr :=
  if (packerMatch s).1 < minMatch then .tokLiteral (s.input.read s.cursor.toNat)
  else .tokMatch (packerMatch s).1 (packerMatch s).2

/-- R133: the slot counter advances. -/
def advanceSlot (s : State) : State := { s with blkCount := s.blkCount + 1 }

/-- Every offset the query and the token read exists (40_match_finder.md R105). -/
def queryInRange (s : State) : Bool :=
  decide (s.cursor.toNat < s.input.size) && decide (s.cursor.toNat + lookaheadLength s ≤ s.input.size)

/-- R126 to R133: the query, the choice, the token and the slot counter. -/
def emitToken (s : State) : Result :=
  if queryInRange s then andThen (exec (selectToken s) s) fun t => .next (advanceSlot t)
  else .fault .inputReadOutOfRange

/-- The TOKEN step (R121, R125 to R133). -/
def tokenStep (s : State) : Result := andThenRunning (flushIfFull s) emitToken

/-- The FINISH step (R121, R134). -/
def finishStep (s : State) : Result :=
  andThenRunning (exec (.blkFlush s.blkFlag) s) fun t => .next (succeed t)

/-- A step of the block with no move of the host: in RUN the one enabled step (R121); in IDLE and DONE the block waits
and keeps all its state (70_reset_and_hazards.md R190, 60_exceptions.md R184; log 8). -/
def sequencerStep (s : State) : Result :=
  match s.phase with
  | .idle => .next s
  | .done => .next s
  | .run =>
    if s.cursor.toNat < s.len.toNat then tokenStep s
    else if s.cursor.toNat = s.len.toNat then finishStep s
    else .fault .noStepEnabled

/-- Reset (70_reset_and_hazards.md R190): the state record takes the values of 10_state.md R35; the configuration and
the host's later moves are outside the block and stay (log 7). -/
def applyReset (s : State) : State := { State.reset with cfg := s.cfg, host := s.host }

/-- The host fixes the configuration (R192 (1), R200; log 9). -/
def configure (cfg : Config) (s : State) : Result :=
  if s.phase = .run then .refused .configureWhileRunning
  else if cfg.Legal then .next { s with cfg := cfg }
  else .refused .illegalConfiguration

/-- A command at the port: decoded by its code and run (30_encoding.md R84, 60_exceptions.md R178, R180 (b)). -/
def issue (c : HostCommand) (s : State) : Result :=
  match decodeCommand c with
  | .ok i => exec i s
  | .error _ => .refused (.unknownCommandCode c.code)

/-- One event of the host. -/
def hostEvent (e : HostEvent) (s : State) : Result :=
  match e with
  | .command c => issue c s
  | .reset => .next (applyReset s)
  | .configure cfg => configure cfg s

/-- Whether the host keeps its move back in this state (R199). -/
def heldBack (mv : HostMove) (s : State) : Bool := mv.wait && decide (s.phase = .run)

/-- One step: the host's next move if it comes now, else a step of the block. -/
def nextStep (s : State) : Result :=
  match s.host with
  | [] => sequencerStep s
  | mv :: rest => if heldBack mv s then sequencerStep s else hostEvent mv.event { s with host := rest }

/-! Setting the machine so that its next step runs a given instruction (log 17). -/

/-- The token bytes of a block of eight tokens with flag byte `f`: the literal 0x00, or `MATCH 3, 1`. -/
def sampleBlock (f : Byte) : Nat → List Byte
  | 0 => []
  | n + 1 => (if f.getLsbD n then shortBytes 3 1 else [0x00]) ++ sampleBlock f n

/-- In RUN with `len` bytes of input, an empty block and no host move. -/
def runningOn (input : Memory) (cursor : Nat) (s : State) : State :=
  { s with
    phase := .run, len := BitVec.ofNat 24 input.size, cursor := BitVec.ofNat 24 cursor, blkFlag := 0x00, blkCount := 0,
    blkBytes := [], input := input, host := [] }

/-- In RUN where the finder answers `(l, d)`: `d` bytes of history that repeat for `l` bytes more. -/
def runningOnMatch (l d : Nat) (s : State) : State :=
  { runningOn (.zeros (d + l)) d s with cfg := { s.cfg with maxMatch := max s.cfg.maxMatch l } }

/-- The host presents a command now, to a block that is not running. -/
def presenting (c : HostCommand) (s : State) : State :=
  { s with
    phase := if s.phase = .run then .idle else s.phase
    host := { wait := false, event := .command c } :: s.host }

/-- The state whose next step runs `i`. -/
def arrangeFor (i : Instr) (s : State) : State :=
  match i with
  | .encode input n => presenting { commandOf 0x01 with input := input, n := n } s
  | .findMatch hist look m => presenting { commandOf 0x02 with hist := hist, look := look, m := m } s
  | .hdr n => presenting { commandOf 0x01 with input := .zeros n.toNat, n := n.toNat } s
  | .blkFlush f =>
    { runningOn .empty 0 s with blkFlag := f, blkCount := 8, blkBytes := sampleBlock f 8 }
  | .tokLiteral b => runningOn (.ofBytes [b]) 0 s
  | .tokMatch l d => runningOnMatch l d s
  | .encShort l d => runningOnMatch l d s
  | .encMedium l d => runningOnMatch l d s
  | .encLong l d => runningOnMatch l d s

end Sys2Proof.Machine
end

