-- ==== Sys2Proof/Machine/Step.lean ====
section
/-!
DEFINITION. One step of LZE (spec/41_token_packer.md R121), and the state in which the next step runs a given
instruction.
-/

namespace Sys2Proof.Machine

/-- One step. -/
def step (s : State) : Host.Outcome State Fault Refusal := nextStep s

/-- `s` arranged so that the next step runs the instruction of the table word `w`: LZE fetches nothing (20_memory.md
R64), so a command is presented at the port, and for a micro-operation the sequencer is put where it selects it
(log 17). A word the decoder refuses is presented as the unknown command code 0x00. -/
def State.withFetchWord (s : State) (nbits w : Nat) : State :=
  match decodeTableWord nbits w with
  | some i => arrangeFor i s
  | none => presenting (commandOf 0x00) s

end Sys2Proof.Machine
end

