-- ==== Sys2Proof/Safety.lean ====
section
/-!
DEFINITION. The terms claims are stated in: the tokens of an output stream and the stream they make (spec/30_encoding.md
R70 to R72), the greedy parse of an input (41_token_packer.md R136), the response an ENCODE must give (R141), a reader
of the stream (R79), and the invariant of the machine (10_state.md R36).
-/

namespace Sys2Proof

/-! Tokens and streams. -/

/-- One token of the output stream (00_scope.md R11). -/
inductive Token where
  | literal (b : Byte)
  | copy (l d : Nat)
  deriving DecidableEq, Repr

namespace Token

/-- Whether the token's flag bit is 1 (R72). -/
def isMatch : Token → Bool
  | literal _ => false
  | copy _ _ => true

/-- The token's bytes (R73 to R76). -/
def bytes : Token → List Byte
  | literal b => [b]
  | copy l d => matchWordBytes l d

/-- The input bytes the token consumes (41_token_packer.md R137). -/
def consumed : Token → Nat
  | literal _ => 1
  | copy l _ => l

/-- What a token may be at cursor `c` of an input of `n` bytes (R81 (b), (c); R129). -/
def Valid (cfg : Config) (c n : Nat) : Token → Prop
  | literal _ => c < n
  | copy l d => minMatch ≤ l ∧ l ≤ cfg.maxMatch ∧ c + l ≤ n ∧ 1 ≤ d ∧ d ≤ c ∧ d ≤ window

end Token

/-- The input bytes a list of tokens consumes. -/
def consumedBy (ts : List Token) : Nat := (ts.map Token.consumed).sum

/-- The token bytes of a list of tokens, in order (R72). -/
def tokenBytes (ts : List Token) : List Byte := ts.flatMap Token.bytes

/-- The flag bits of tokens whose first one has the bit of value `weight` (R72: bit 7 is slot 0). -/
def flagBits : Nat → List Token → Nat
  | _, [] => 0
  | weight, t :: rest => (if t.isMatch then weight else 0) + flagBits (weight / 2) rest

/-- The flag byte of a block (R72). -/
def blockFlag (ts : List Token) : Byte := BitVec.ofNat 8 (flagBits 0x80 ts)

/-- A block: its flag byte and its tokens (R72). -/
def blockOf (ts : List Token) : List Byte := blockFlag ts :: tokenBytes ts

/-- The blocks of a list of tokens, eight tokens each but for the last (R72), with at most `fuel` of them. -/
def blocksUpTo : Nat → List Token → List Byte
  | 0, _ => []
  | fuel + 1, ts => if ts = [] then [] else blockOf (ts.take slots) ++ blocksUpTo fuel (ts.drop slots)

/-- The blocks of a list of tokens. -/
def blocksOf (ts : List Token) : List Byte := blocksUpTo ts.length ts

/-- The header of an input of `n` bytes (R71). -/
def headerOf (cfg : Config) (n : Nat) : List Byte := encode cfg (.hdr (BitVec.ofNat 24 n))

/-! The greedy parse. -/

/-- The finder's answer at cursor `c` of an input (R126). -/
def matchAt (cfg : Config) (input : Memory) (c : Nat) : Nat × Nat :=
  Machine.findMatch (fun j => input.read (c - window + j)) (min c window) (min (input.size - c) cfg.maxMatch) mfMinDisp

/-- The token at cursor `c` (R127). -/
def tokenAt (cfg : Config) (input : Memory) (c : Nat) : Token :=
  if (matchAt cfg input c).1 < minMatch then .literal (input.read c)
  else .copy (matchAt cfg input c).1 (matchAt cfg input c).2

/-- The tokens from cursor `c` on (R136), with at most `fuel` of them. -/
def parseUpTo (cfg : Config) (input : Memory) : Nat → Nat → List Token
  | 0, _ => []
  | fuel + 1, c =>
    if c < input.size then
      tokenAt cfg input c :: parseUpTo cfg input fuel (c + (tokenAt cfg input c).consumed)
    else []

/-- The tokens of an input from cursor `c` on. -/
def parseFrom (cfg : Config) (input : Memory) (c : Nat) : List Token := parseUpTo cfg input (input.size - c) c

/-- The tokens of an input. -/
def parse (cfg : Config) (input : Memory) : List Token := parseFrom cfg input 0

/-- The output stream of a successful ENCODE (R70). -/
def encodedStream (cfg : Config) (input : Memory) : List Byte :=
  headerOf cfg input.size ++ blocksOf (parse cfg input)

/-- The response of an ENCODE as a function of its operand and the configuration (R141, R171, R172, R174). -/
def encodeResponse (cfg : Config) (input : Memory) : Machine.Response :=
  if maxInput < input.size then .inputTooLarge
  else if Machine.fits cfg (encodedStream cfg input).length then
    .success (encodedStream cfg input) (encodedStream cfg input).length
  else .allocFailure

/-! A reader of the stream, as R79 says a reader recovers each token. -/

/-- Copies `l` bytes from `d` back, one at a time (40_match_finder.md R102: a match may overlap itself). DESIGN CHOICE
(log 27): while `d` is above the number of bytes rebuilt, which LZE never writes (30_encoding.md R81 (b)), the byte
copied is the first byte rebuilt, and 0x00 where there is none yet. -/
def copyBack (d : Nat) : Nat → List Byte → List Byte
  | 0, out => out
  | l + 1, out => copyBack d l (out ++ [out.getD (out.length - d) 0])

/-- Reads tokens until `n` bytes are rebuilt (R79); `slot = 8` says that a flag byte stands next. DESIGN CHOICE (log 27):
a match that reaches past `n`, which LZE never writes (30_encoding.md R81 (c)), is copied whole, so the reader then
answers more than `n` bytes. -/
def readTokens (n : Nat) : Nat → Nat → Byte → List Byte → List Byte → Option (List Byte)
  | 0, _, _, _, out => if n ≤ out.length then some out else none
  | fuel + 1, slot, flag, bytes, out =>
    if n ≤ out.length then some out
    else if slot = slots then
      match bytes with
      | [] => none
      | f :: rest => readTokens n fuel 0 f rest out
    else
      match decodeToken (flag.getLsbD (7 - slot)) bytes with
      | .ok (.tokLiteral b, rest) => readTokens n fuel (slot + 1) flag rest (out ++ [b])
      | .ok (.tokMatch l d, rest) => readTokens n fuel (slot + 1) flag rest (copyBack d l out)
      | _ => none

/-- The bytes a reader rebuilds from the blocks of a stream. -/
def readBlocks (n : Nat) (blocks : List Byte) : Option (List Byte) :=
  readTokens n (blocks.length + 1) slots 0x00 blocks []

/-! The finder's closed form (R106). -/

/-- `run(d) = k`: the run length of the candidate at displacement `d`. -/
def IsRun (w : Nat → Byte) (h a d k : Nat) : Prop :=
  k ≤ a ∧ (∀ j < k, w (h - d + j) = w (h + j)) ∧ (k < a → w (h - d + k) ≠ w (h + k))

/-- `(L, D)` is the closed form's result. -/
def IsBestMatch (w : Nat → Byte) (h a m : Nat) (r : Nat × Nat) : Prop :=
  (a = 0 ∨ h < m → r = (0, 0)) ∧
  (a ≠ 0 ∧ m ≤ h →
    (∃ d, m ≤ d ∧ d ≤ h ∧ IsRun w h a d r.1) ∧
    (∀ d k, m ≤ d → d ≤ h → IsRun w h a d k → k ≤ r.1) ∧
    (r.1 = 0 → r.2 = 0) ∧
    (1 ≤ r.1 → m ≤ r.2 ∧ r.2 ≤ h ∧ IsRun w h a r.2 r.1 ∧ ∀ d, m ≤ d → d ≤ h → IsRun w h a d r.1 → d ≤ r.2))

namespace Machine

/-- The host makes no move at this step if the block is running: it has none to make, or waits for DONE (R199). -/
def State.hostSilent (s : State) : Bool :=
  match s.host with
  | [] => true
  | mv :: _ => mv.wait

/-! The invariant. -/

/-- Throughout RUN (10_state.md R36): `flushed` are the tokens in `OUT`, `block` those of the block being built, and
the two are the tokens of the input's greedy parse up to the cursor. -/
structure State.RunsWith (s : State) (flushed block : List Token) : Prop where
  /-- the operand the ENCODE runs on is the one `len` measures (R25) -/
  lenIsSize : s.len.toNat = s.input.size
  /-- (a) -/
  cursorLe : s.cursor.toNat ≤ s.len.toNat
  /-- (b) -/
  countLe : s.blkCount.toNat ≤ slots
  countIs : s.blkCount.toNat = block.length
  /-- (c), (d): the flag byte and the bytes are those of the block's tokens -/
  flagIs : s.blkFlag = blockFlag block
  bytesAre : s.blkBytes = tokenBytes block
  /-- (e): the header and the full blocks written so far -/
  outIs : s.out = headerOf s.cfg s.len.toNat ++ blocksOf flushed
  fullBlocks : flushed.length % slots = 0
  outFits : fits s.cfg s.out.length = true
  /-- (f): the tokens account for exactly `cursor` input bytes -/
  cursorIs : s.cursor.toNat = consumedBy (flushed ++ block)
  /-- the parse is greedy (41_token_packer.md R136) -/
  parseIs : parse s.cfg s.input = flushed ++ block ++ parseFrom s.cfg s.input s.cursor.toNat

/-- The invariant every step keeps. -/
structure State.Inv (s : State) : Prop where
  /-- the configuration is legal (00_scope.md R6) -/
  cfgLegal : s.cfg.Legal
  /-- the operand is in canonical form -/
  inputWf : s.input.wf = true
  /-- the operands the host will present are in canonical form -/
  hostWf : ∀ mv ∈ s.host,
    (∀ c, mv.event = .command c → c.input.wf = true ∧ c.hist.wf = true ∧ c.look.wf = true)
  /-- NONE means that no operation has completed since reset (R23) -/
  idleNone : s.phase = .idle → s.status = .none
  doneSome : s.phase = .done → s.status ≠ .none
  /-- no output is handed to the host on failure (60_exceptions.md R176) -/
  failedEmpty : s.phase = .done → s.status ≠ .success → s.out = []
  /-- throughout RUN (R36) -/
  runs : s.phase = .run → ∃ flushed block, s.RunsWith flushed block

end Machine

end Sys2Proof
end

