-- ==== Sys2Proof/WellFormed.lean ====
section
/-!
DEFINITION. Which instructions are well formed: each check is a range a rule of the spec gives an operand, with a name.
-/

namespace Sys2Proof

/-- The checks, by name. -/
inductive IllFormed where
  /-- a byte string that is not in the canonical form of `Memory` (log 4) -/
  | notCanonical
  /-- ENCODE with `N ≠ |IN|` (30_encoding.md R85) -/
  | lengthMismatch
  /-- FIND_MATCH with `|H| > 4096` (R86) -/
  | historyTooLong
  /-- FIND_MATCH with `|A| > MAX_MATCH` (R86) -/
  | lookaheadTooLong
  /-- FIND_MATCH with `m = 0` or `m > 4096` (R86) -/
  | minDisplacementOutOfRange
  /-- a match length outside the format's range (R74 to R77) -/
  | lengthOutOfRange
  /-- a displacement outside 1 … 4096 (R74 to R76) -/
  | displacementOutOfRange
  deriving DecidableEq, Repr

/-- The checks of a serialized match whose format takes the lengths `lo … hi` (R74 to R76). -/
def checkMatch (lo hi l d : Nat) : Option IllFormed :=
  if l < lo ∨ hi < l then some .lengthOutOfRange
  else if d < 1 ∨ window < d then some .displacementOutOfRange
  else none

/-- The first check an instruction fails under a configuration, or `none`. -/
def Instr.check (cfg : Config) : Instr → Option IllFormed
  | .encode input n =>
    if input.wf = false then some .notCanonical
    else if n ≠ input.size then some .lengthMismatch
    else none
  | .findMatch hist look m =>
    if hist.wf = false ∨ look.wf = false then some .notCanonical
    else if window < hist.size then some .historyTooLong
    else if cfg.maxMatch < look.size then some .lookaheadTooLong
    else if m < 1 ∨ window < m then some .minDisplacementOutOfRange
    else none
  | .hdr _ => none
  | .blkFlush _ => none
  | .tokLiteral _ => none
  | .tokMatch l d => checkMatch minMatch cfg.maxMatch l d
  | .encShort l d => checkMatch 3 16 l d
  | .encMedium l d => checkMatch 17 272 l d
  | .encLong l d => checkMatch 273 maxMatchLimit l d

/-- A well-formed instruction passes every check. -/
abbrev Instr.Wf (cfg : Config) (i : Instr) : Prop := i.check cfg = none

end Sys2Proof
end

