-- ==== Sys2Proof/Certificates/Slice0/Obligations.lean ====
section
/-!
DEFINITION. The statements for the provers. Each docstring names the rule of spec/ the statement formalises, or says
that it is derived or the model's own choice, with its log entry.
-/

open Sys2Proof Sys2Proof.Machine

/-! Encodings. -/

/-- Words written out from the format tables (R71 to R76, R84) decode to the instructions they stand for. The header is
H9 at shift 15, where no byte holds `N[23]` (R162) and `0x923456` has the same header: that the decoder answers the
length with `N[23] = 0` is the model's choice (log 19). -/
def Obligations.SpecWordsDecodeToTheirInstructions : Prop :=
  decode .default (.tier [0x60, 0x06]) = .ok (.encShort 7 7, []) ∧
  decode .default (.tier [0x05, 0x31, 0x22]) = .ok (.encMedium 100 291, []) ∧
  decode .default (.tier [0x11, 0x27, 0x60, 0x00]) = .ok (.encLong 4999 1, []) ∧
  decode .default (.token true [0x30, 0x0E]) = .ok (.tokMatch 4 15, []) ∧
  decode .default (.token false [0x41]) = .ok (.tokLiteral 0x41, []) ∧
  decode .default (.flag [0x40]) = .ok (.blkFlush 0x40, []) ∧
  decode .default (.header [0x11, 0x56, 0x34, 0x24]) = .ok (.hdr 0x123456, []) ∧
  (∀ input n hist look m, decode .default (.command ⟨0x01, input, n, hist, look, m⟩) = .ok (.encode input n, [])) ∧
  (∀ input n hist look m,
    decode .default (.command ⟨0x02, input, n, hist, look, m⟩) = .ok (.findMatch hist look m, []))

/-- For every well-formed instruction, decoding its words where they stand gives it back, with every operand at every
value. At `HDR_B3_SHIFT = 15` a header has no bit for `N[23]` (R162), so there `N < 0x800000` is asked. -/
def Obligations.DecodeOfEncodeGivesTheInstruction : Prop :=
  ∀ (cfg : Config) (i : Instr) (rest : List Byte), cfg.Legal → i.Wf cfg →
    (∀ n, i = .hdr n → cfg.hdrB3Shift = .s15 → n.toNat < 0x800000) →
    decode cfg (place cfg i rest) = .ok (i, afterInstr i rest)

/-- In every place but the command port, the bytes the decoder accepts are the encoder's bytes of what it answers, and
what it answers is in the format's ranges (R71 to R76, R79): no bit of accepted bytes is dropped. It says nothing of
bytes the decoder rejects. At shift 15 the header place rests on the model's choices of log 19: a header whose two
copies of `N[15]` differ is rejected, and `N[23]` is read as 0 (R162). -/
def Obligations.EncodeOfDecodeGivesTheBytes : Prop :=
  ∀ (cfg : Config) (bytes rest : List Byte) (i : Instr), cfg.maxMatch = maxMatchLimit →
    (∀ place ∈ [Encoded.header bytes, .flag bytes, .token false bytes, .token true bytes, .tier bytes],
      decode cfg place = .ok (i, rest) → bytes = encode cfg i ++ rest ∧ i.Wf cfg)

/-- The high nibble of a match's first byte tells its tier, and its tier its size (R77, R79; 30_encoding.md section 4). -/
def Obligations.FirstNibbleTellsTheTier : Prop :=
  ∀ l d : Nat, 3 ≤ l → l ≤ 0x10110 → 1 ≤ d → d ≤ 4096 →
    ∃ b0 rest, matchBytes l d = b0 :: rest ∧
      (2 ≤ hiNibble b0 ↔ l ≤ 16) ∧ (hiNibble b0 = 0 ↔ 17 ≤ l ∧ l ≤ 272) ∧ (hiNibble b0 = 1 ↔ 273 ≤ l) ∧
      (matchBytes l d).length = if l ≤ 16 then 2 else if l ≤ 272 then 3 else 4

/-- The bytes the machine writes, by the formulas of R130 to R132 and R160, are the big-endian words of the format
tables R71 and R74 to R76 (R83). -/
def Obligations.SerializersWriteTheFormatWords : Prop :=
  ∀ (cfg : Config) (l d : Nat) (n : BitVec 24), 1 ≤ d → d ≤ 4096 →
    (3 ≤ l → l ≤ 16 → shortBytes l d = encode cfg (.encShort l d)) ∧
    (17 ≤ l → l ≤ 272 → mediumBytes l d = encode cfg (.encMedium l d)) ∧
    (273 ≤ l → l ≤ 0x10110 → longBytes l d = encode cfg (.encLong l d)) ∧
    (3 ≤ l → l ≤ 0x10110 → matchBytes l d = encode cfg (.tokMatch l d)) ∧
    headerBytes cfg n.toNat = encode cfg (.hdr n)

/-- At `HDR_B3_SHIFT = 15` two lengths have one header exactly when they differ at most in bit 23; at 16 a header
identifies its length (a consequence R162 derives). -/
def Obligations.HeaderAtShift15LosesExactlyBit23 : Prop :=
  ∀ (cfg : Config) (n n' : BitVec 24),
    (cfg.hdrB3Shift = .s15 →
      (headerBytes cfg n.toNat = headerBytes cfg n'.toNat ↔ n.extractLsb' 0 23 = n'.extractLsb' 0 23)) ∧
    (cfg.hdrB3Shift = .s16 → (headerBytes cfg n.toNat = headerBytes cfg n'.toNat ↔ n = n'))

/-! What each instruction does: its whole next state. -/

/-- HDR appends the tag, `N[7:0]`, `N[15:8]` and byte 3, which is `N[22:15]` or `N[23:16]` by `HDR_B3_SHIFT`; when
`OUT_CAPACITY` does not allow 4 bytes more it ends the operation with ALLOC_FAILURE (R160 to R162, R172). That a failed
operation keeps the working registers, here and below, is R175 and the model's reading of it (log 15); that HDR does so
in every state, whatever its phase, is the model's choice (log 6). -/
def Obligations.HdrAppendsTheHeaderBytes : Prop :=
  ∀ (n : BitVec 24) (s : State),
    exec (.hdr n) s = .next (
      if fits s.cfg (s.out.length + 4) then
        { s with out := s.out ++ [0x11, n.extractLsb' 0 8, n.extractLsb' 8 8,
            match s.cfg.hdrB3Shift with
            | .s15 => n.extractLsb' 15 8
            | .s16 => n.extractLsb' 16 8] }
      else { s with out := [], status := .allocFailure, phase := .done })

/-- BLK_FLUSH of a block that holds a token appends `blk_flag` and `blk_bytes` and starts an empty block, or ends the
operation with ALLOC_FAILURE and leaves the block registers as they were (R125, R135, R172). That it does nothing to a
block without tokens, and is refused for a flag byte that is not `blk_flag`, is the model's choice (logs 11 and 10). -/
def Obligations.BlkFlushWritesTheBlock : Prop :=
  ∀ s : State,
    (s.blkCount ≠ 0 → exec (.blkFlush s.blkFlag) s = .next (
      if fits s.cfg (s.out.length + 1 + s.blkBytes.length) then
        { s with out := s.out ++ [s.blkFlag] ++ s.blkBytes, blkFlag := 0x00, blkCount := 0, blkBytes := [] }
      else { s with out := [], status := .allocFailure, phase := .done })) ∧
    (s.blkCount = 0 → exec (.blkFlush s.blkFlag) s = .next s) ∧
    (∀ f, f ≠ s.blkFlag → exec (.blkFlush f) s = .refused .bitsNotOfState)

/-- TOK_LITERAL appends the byte at the cursor to `blk_bytes` and advances the cursor by 1 (R128), for every byte at
the cursor, in a slot of 0 to 7 and within the 32 bytes of the buffer; any other byte is not the token (log 10), and a
read past the input, a ninth token and a 33rd byte are faults of the model (logs 13 and 14). -/
def Obligations.TokLiteralEmitsTheByteAtTheCursor : Prop :=
  ∀ (b : Byte) (s : State),
    (s.input.read? s.cursor.toNat = some b → s.blkCount.toNat < 8 → s.blkBytes.length < 32 →
      exec (.tokLiteral b) s = .next { s with blkBytes := s.blkBytes ++ [b], cursor := s.cursor + 1 }) ∧
    (s.input.size ≤ s.cursor.toNat → exec (.tokLiteral b) s = .fault .inputReadOutOfRange) ∧
    (s.cursor.toNat < s.input.size → s.input.read s.cursor.toNat ≠ b →
      exec (.tokLiteral b) s = .refused .bitsNotOfState) ∧
    (s.input.read? s.cursor.toNat = some b → 8 ≤ s.blkCount.toNat →
      exec (.tokLiteral b) s = .fault .noFreeSlot) ∧
    (s.input.read? s.cursor.toNat = some b → s.blkCount.toNat < 8 → 32 ≤ s.blkBytes.length →
      exec (.tokLiteral b) s = .fault .blockBufferFull)

/-- TOK_MATCH sets bit `7 - blk_count` of `blk_flag`, appends the bytes of the match in the format `Tier(L)` and
advances the cursor by `L` (R129), for every `L` and `D` in the ranges of R126 and R129, in a slot of 0 to 7. -/
def Obligations.TokMatchEmitsTheMatch : Prop :=
  ∀ (l d : Nat) (s : State), s.cfg.Legal →
    3 ≤ l → l ≤ s.cfg.maxMatch → s.cursor.toNat + l ≤ s.len.toNat →
    1 ≤ d → d ≤ s.cursor.toNat → d ≤ 4096 →
    s.blkCount.toNat < 8 → s.blkBytes.length ≤ 28 →
    exec (.tokMatch l d) s = .next { s with
      blkFlag := s.blkFlag ||| BitVec.ofNat 8 (2 ^ (7 - s.blkCount.toNat))
      blkBytes := s.blkBytes ++ encode s.cfg (.tokMatch l d)
      cursor := BitVec.ofNat 24 (s.cursor.toNat + l) }

/-- The serializers append exactly the bytes the layouts of R74, R75 and R76 give, as arithmetic on `L` and `D`, and
change nothing else. -/
def Obligations.SerializersAppendTheirBytes : Prop :=
  ∀ (l d : Nat) (s : State), 1 ≤ d → d ≤ 4096 → s.blkBytes.length ≤ 28 →
    (3 ≤ l → l ≤ 16 → exec (.encShort l d) s = .next { s with blkBytes := s.blkBytes ++
      [BitVec.ofNat 8 ((l - 1) * 16 + (d - 1) / 256), BitVec.ofNat 8 ((d - 1) % 256)] }) ∧
    (17 ≤ l → l ≤ 272 → exec (.encMedium l d) s = .next { s with blkBytes := s.blkBytes ++
      [BitVec.ofNat 8 ((l - 17) / 16), BitVec.ofNat 8 ((l - 17) % 16 * 16 + (d - 1) / 256),
        BitVec.ofNat 8 ((d - 1) % 256)] }) ∧
    (273 ≤ l → l ≤ 0x10110 → exec (.encLong l d) s = .next { s with blkBytes := s.blkBytes ++
      [BitVec.ofNat 8 (16 + (l - 273) / 4096), BitVec.ofNat 8 ((l - 273) / 16 % 256),
        BitVec.ofNat 8 ((l - 273) % 16 * 16 + (d - 1) / 256), BitVec.ofNat 8 ((d - 1) % 256)] })

/-- A match micro-operation whose operands are outside its ranges is refused by name, in every state: the model's
choice, since no step of the spec runs one (log 10; 30_encoding.md R77). -/
def Obligations.MatchOutOfRangeIsRefused : Prop :=
  ∀ (l d : Nat) (s : State),
    (l < 3 ∨ 16 < l ∨ d < 1 ∨ 4096 < d → exec (.encShort l d) s = .refused .matchOperands) ∧
    (l < 17 ∨ 272 < l ∨ d < 1 ∨ 4096 < d → exec (.encMedium l d) s = .refused .matchOperands) ∧
    (l < 273 ∨ 0x10110 < l ∨ d < 1 ∨ 4096 < d → exec (.encLong l d) s = .refused .matchOperands) ∧
    (l < 3 ∨ s.cfg.maxMatch < l ∨ 0x10110 < l ∨ s.len.toNat < s.cursor.toNat + l ∨
      d < 1 ∨ s.cursor.toNat < d ∨ 4096 < d → exec (.tokMatch l d) s = .refused .matchOperands)

/-- FIND_MATCH, in IDLE or DONE and with operands in their legal ranges, writes `mf_len`, `mf_disp`, SUCCESS and DONE,
and nothing else (R100, R108). -/
def Obligations.FindMatchCompletesWithTheFindersAnswer : Prop :=
  ∀ (hist look : Memory) (m : Nat) (s : State), s.phase ≠ .run →
    hist.size ≤ 4096 → look.size ≤ s.cfg.maxMatch → 1 ≤ m → m ≤ 4096 →
    exec (.findMatch hist look m) s = .next { s with
      mfLen := BitVec.ofNat 17 (findMatch (viewOf hist look) hist.size look.size m).1
      mfDisp := BitVec.ofNat 13 (findMatch (viewOf hist look) hist.size look.size m).2
      status := .success
      phase := .done }

/-- The result registers of a FIND_MATCH hold the closed form of R106: the longest run, and the largest displacement
among the longest; and its bounds. -/
def Obligations.FindMatchLeavesTheBestMatch : Prop :=
  ∀ (hist look : Memory) (m : Nat) (s t : State), s.cfg.Legal → exec (.findMatch hist look m) s = .next t →
    IsBestMatch (viewOf hist look) hist.size look.size m (t.mfLen.toNat, t.mfDisp.toNat) ∧
    t.mfLen.toNat ≤ look.size ∧ t.mfDisp.toNat ≤ hist.size ∧ (t.mfLen.toNat = 0 ↔ t.mfDisp.toNat = 0)

/-- The closed form of R106 determines the result, so any search that meets it returns the finder's answer, tie-break
included (R109). -/
def Obligations.ClosedFormDeterminesTheMatch : Prop :=
  ∀ (w : Nat → Byte) (h a m : Nat) (r : Nat × Nat), 1 ≤ m → (IsBestMatch w h a m r ↔ r = findMatch w h a m)

/-- The query of a TOKEN step is the FIND_MATCH of the two views of R126 and `m = 1`: whatever block runs that command on
byte strings equal to `IN[max(0, c - 4096)..c)` and `IN[c..min(len, c + MAX_MATCH))` gets the packer's `(L, D)` in its
result registers (R31, R32; 40_match_finder.md R100). -/
def Obligations.PackerQueryIsFindMatchOnTheViews : Prop :=
  ∀ (s u : State) (hist look : Memory), s.cfg.Legal → s.cursor.toNat ≤ s.len.toNat → s.len.toNat ≤ s.input.size →
    hist.size = min s.cursor.toNat 4096 → look.size = min (s.len.toNat - s.cursor.toNat) s.cfg.maxMatch →
    (∀ j < hist.size, hist.read? j = s.input.read? (s.cursor.toNat - 4096 + j)) →
    (∀ j < look.size, look.read? j = s.input.read? (s.cursor.toNat + j)) →
    u.phase ≠ .run → u.cfg = s.cfg →
    ∃ t, exec (.findMatch hist look 1) u = .next t ∧ (t.mfLen.toNat, t.mfDisp.toNat) = packerMatch s

/-- An empty lookahead gives `(0, 0)`, whatever the history and `m`; and the lookahead of a TOKEN step is never
empty (R101). -/
def Obligations.EmptyLookaheadGivesNoMatch : Prop :=
  (∀ (w : Nat → Byte) (h m : Nat), findMatch w h 0 m = (0, 0)) ∧
  (∀ s : State, s.cfg.Legal → s.cursor.toNat < s.len.toNat → 1 ≤ lookaheadLength s)

/-- ENCODE accepted in IDLE or DONE: its START step. Above `MAX_INPUT` it ends with INPUT_TOO_LARGE and leaves every
working register (R122); else it initialises every working register and writes the header (R123), or, where
`OUT_CAPACITY` is below 4, ends with ALLOC_FAILURE (R172). That the working registers keep their new values after that
failure is R175 in the model's reading (log 15), and the field `input`, which takes the operand, is the model's way to
hold `IN` (log 3). -/
def Obligations.EncodeStarts : Prop :=
  ∀ (input : Memory) (s : State), s.phase ≠ .run →
    (0xFFFFFF < input.size → exec (.encode input input.size) s =
      .next { s with out := [], status := .inputTooLarge, phase := .done }) ∧
    (input.size ≤ 0xFFFFFF → fits s.cfg 4 = true → exec (.encode input input.size) s =
      .next { s with
        len := BitVec.ofNat 24 input.size, cursor := 0, blkFlag := 0x00, blkCount := 0, blkBytes := []
        out := headerOf s.cfg input.size, phase := .run, input := input }) ∧
    (input.size ≤ 0xFFFFFF → fits s.cfg 4 = false → exec (.encode input input.size) s =
      .next { s with
        len := BitVec.ofNat 24 input.size, cursor := 0, blkFlag := 0x00, blkCount := 0, blkBytes := []
        out := [], status := .allocFailure, phase := .done, input := input })

/-! Frames. -/

/-- A serializer changes the block's bytes only; a token changes the block's bytes, the cursor and, for a match, its
flag bit; every other register, every byte of `OUT` and every byte of the input stay. They store nothing to `OUT`. -/
def Obligations.BlockMicroOperationsLeaveTheRest : Prop :=
  ∀ (i : Instr) (s t : State), exec i s = .next t →
    (∀ l d b, i ∈ [.encShort l d, .encMedium l d, .encLong l d, .tokLiteral b, .tokMatch l d] →
      t.phase = s.phase ∧ t.status = s.status ∧ t.len = s.len ∧ t.blkCount = s.blkCount ∧
      t.mfLen = s.mfLen ∧ t.mfDisp = s.mfDisp ∧ t.cfg = s.cfg ∧ t.host = s.host ∧
      (∀ a : Nat, t.out[a]? = s.out[a]?) ∧ (∀ a, t.input.read? a = s.input.read? a) ∧
      (∀ k < s.blkBytes.length, t.blkBytes[k]? = s.blkBytes[k]?)) ∧
    (∀ l d b, i ∈ [.encShort l d, .encMedium l d, .encLong l d, .tokLiteral b] → t.blkFlag = s.blkFlag) ∧
    (∀ l d, i ∈ [.encShort l d, .encMedium l d, .encLong l d] → t.cursor = s.cursor) ∧
    (∀ l d, i = .tokMatch l d → ∀ k < 8, k ≠ 7 - s.blkCount.toNat → t.blkFlag.getLsbD k = s.blkFlag.getLsbD k)

/-- HDR and BLK_FLUSH store at the end of `OUT`: the offsets `|OUT|` to `|OUT| + n - 1` get the `n` bytes written, and
every offset below reads as before, unless the append failed, which empties `OUT` (R51, R172). HDR changes no block
register; neither changes a result register, the cursor, `len`, the input or, when the append succeeds, `status` or
`phase`. -/
def Obligations.OutputMicroOperationsAppendOnly : Prop :=
  ∀ (i : Instr) (s t : State) (bytes : List Byte), exec i s = .next t →
    ((∃ n, i = .hdr n ∧ bytes = headerBytes s.cfg n.toNat) ∨
      (∃ f, i = .blkFlush f ∧ bytes = if s.blkCount = 0 then [] else s.blkFlag :: s.blkBytes)) →
    (((∀ a < s.out.length, t.out[a]? = s.out[a]?) ∧ (∀ k < bytes.length, t.out[s.out.length + k]? = bytes[k]?) ∧
        t.out.length = s.out.length + bytes.length ∧ t.status = s.status ∧ t.phase = s.phase) ∨
      (fits s.cfg (s.out.length + bytes.length) = false ∧ t.out = [] ∧ t.status = .allocFailure ∧ t.phase = .done ∧
        t.blkFlag = s.blkFlag ∧ t.blkCount = s.blkCount ∧ t.blkBytes = s.blkBytes)) ∧
    t.len = s.len ∧ t.cursor = s.cursor ∧ t.mfLen = s.mfLen ∧ t.mfDisp = s.mfDisp ∧ t.cfg = s.cfg ∧ t.host = s.host ∧
    (∀ a, t.input.read? a = s.input.read? a) ∧
    (∀ n, i = .hdr n → t.blkFlag = s.blkFlag ∧ t.blkCount = s.blkCount ∧ t.blkBytes = s.blkBytes)

/-- FIND_MATCH leaves `OUT`, every register of the packer and the input (R100, R194); ENCODE leaves `mf_len` and
`mf_disp` (R30), and its new operand is the one it was given. -/
def Obligations.CommandsLeaveTheRest : Prop :=
  ∀ (s t : State),
    (∀ hist look m, exec (.findMatch hist look m) s = .next t →
      (∀ a : Nat, t.out[a]? = s.out[a]?) ∧ t.len = s.len ∧ t.cursor = s.cursor ∧ t.blkFlag = s.blkFlag ∧
      t.blkCount = s.blkCount ∧ t.blkBytes = s.blkBytes ∧ (∀ a, t.input.read? a = s.input.read? a) ∧
      t.cfg = s.cfg ∧ t.host = s.host) ∧
    (∀ input n, exec (.encode input n) s = .next t →
      t.mfLen = s.mfLen ∧ t.mfDisp = s.mfDisp ∧ t.cfg = s.cfg ∧ t.host = s.host ∧
      (∀ a, t.input.read? a = if n ≤ 0xFFFFFF then input.read? a else s.input.read? a))

/-! The step. -/

/-- A command at the port that decodes to an instruction: the step takes the move off the host's list and is `exec` of
that instruction there (R84, R178; the list is the model's, log 5). -/
def Obligations.StepRunsTheIssuedInstruction : Prop :=
  ∀ (s : State) (wait : Bool) (c : HostCommand) (rest : List HostMove) (i : Instr),
    s.host = ⟨wait, .command c⟩ :: rest → (wait = true → s.phase ≠ .run) →
    decode s.cfg (.command c) = .ok (i, []) → step s = exec i { s with host := rest }

/-- The TOKEN step runs micro-operations (R121, R125 to R133): with the host silent in RUN, below `len` and inside the
input, a block with a free slot gets the literal at the cursor when the finder's `L` is below 3, else the match, and
the slot counter advances; a full block is flushed first, and the step ends there when that append fails. -/
def Obligations.TokenStepRunsItsMicroOperations : Prop :=
  ∀ s : State, s.phase = .run → s.hostSilent = true → s.cursor.toNat < s.len.toNat →
    s.len.toNat ≤ s.input.size →
    (s.blkCount.toNat < 8 → (packerMatch s).1 < 3 →
      ∀ b, s.input.read? s.cursor.toNat = some b →
        step s = andThen (exec (.tokLiteral b) s) fun t => .next { t with blkCount := t.blkCount + 1 }) ∧
    (s.blkCount.toNat < 8 → 3 ≤ (packerMatch s).1 →
      step s = andThen (exec (.tokMatch (packerMatch s).1 (packerMatch s).2) s) fun t =>
        .next { t with blkCount := t.blkCount + 1 }) ∧
    (s.blkCount.toNat = 8 → ∀ u, exec (.blkFlush s.blkFlag) s = .next u →
      step s = if u.phase = .run then step u else .next u)

/-- START of an ENCODE within the size bound runs HDR on the initialised registers (R123, R160), so what is stated of
HDR reaches every ENCODE. -/
def Obligations.StartRunsHdr : Prop :=
  ∀ (input : Memory) (s : State), s.phase ≠ .run → input.size ≤ 0xFFFFFF →
    exec (.encode input input.size) s = exec (.hdr (BitVec.ofNat 24 input.size)) { s with
      len := BitVec.ofNat 24 input.size, cursor := 0, blkFlag := 0x00, blkCount := 0, blkBytes := [], out := []
      phase := .run, input := input }

/-- TOK_MATCH, with its operands in range and a free slot, runs the serializer `Tier(L)` chooses and then sets its flag
bit and advances the cursor (R129, R77), so what is stated of the serializers reaches every match. -/
def Obligations.TokMatchRunsItsSerializer : Prop :=
  ∀ (l d : Nat) (s : State), s.cfg.Legal →
    3 ≤ l → l ≤ s.cfg.maxMatch → s.cursor.toNat + l ≤ s.len.toNat →
    1 ≤ d → d ≤ s.cursor.toNat → d ≤ 4096 → s.blkCount.toNat < 8 →
    exec (.tokMatch l d) s =
      andThen (exec (if l ≤ 16 then .encShort l d else if l ≤ 272 then .encMedium l d else .encLong l d) s) fun t =>
        .next { t with
          blkFlag := s.blkFlag ||| BitVec.ofNat 8 (2 ^ (7 - s.blkCount.toNat))
          cursor := BitVec.ofNat 24 (s.cursor.toNat + l) }

/-- The FINISH step (R121, R134): with the host silent in RUN and `cursor = len`, the block is flushed if it holds a
token, and the operation completes with SUCCESS unless that append failed. -/
def Obligations.FinishStepCompletes : Prop :=
  ∀ s : State, s.phase = .run → s.hostSilent = true → s.cursor = s.len →
    (s.blkCount = 0 → step s = .next { s with status := .success, phase := .done }) ∧
    (s.blkCount ≠ 0 → step s = .next (
      if fits s.cfg (s.out.length + 1 + s.blkBytes.length) then
        { s with
          out := s.out ++ [s.blkFlag] ++ s.blkBytes, blkFlag := 0x00, blkCount := 0, blkBytes := []
          status := .success, phase := .done }
      else { s with out := [], status := .allocFailure, phase := .done }))

/-- In IDLE and DONE, with no move of the host, the block waits and keeps all its state (read from R190 and R184;
log 8). -/
def Obligations.QuietBlockKeepsItsState : Prop :=
  ∀ s : State, s.host = [] → s.phase ≠ .run → step s = .next s

/-- Reset takes effect in any phase and sets every field of the state record to its value in R35 (R190); the
configuration and the host's later moves stay (log 7). -/
def Obligations.ResetTakesEffectInAnyPhase : Prop :=
  ∀ (s : State) (rest : List HostMove), s.host = ⟨false, .reset⟩ :: rest →
    step s = .next { State.reset with cfg := s.cfg, host := rest }

/-- The reset values of the state record (R35). -/
def Obligations.ResetValuesAreTheTables : Prop :=
  State.reset.phase = .idle ∧ State.reset.status = .none ∧ State.reset.status.code = 0xFF ∧ State.reset.len = 0 ∧
  State.reset.cursor = 0 ∧ State.reset.blkFlag = 0x00 ∧ State.reset.blkCount = 0 ∧ State.reset.blkBytes = [] ∧
  State.reset.out = [] ∧ State.reset.mfLen = 0 ∧ State.reset.mfDisp = 0

/-- The status codes (R170). -/
def Obligations.StatusCodesAreTheTables : Prop :=
  Status.success.code = 0x00 ∧ Status.inputTooLarge.code = 0x01 ∧ Status.allocFailure.code = 0x02 ∧
  Status.none.code = 0xFF

/-- A command that comes now is refused exactly in the four cases of R180, and is accepted, answering a next state,
exactly otherwise (R178). -/
def Obligations.CommandIsRefusedExactlyWhenListed : Prop :=
  ∀ (s : State) (c : HostCommand) (rest : List HostMove), s.host = ⟨false, .command c⟩ :: rest →
    ((∃ r, step s = .refused r) ↔
      (s.phase = .run ∨ (c.code ≠ 0x01 ∧ c.code ≠ 0x02) ∨
        (c.code = 0x02 ∧ ¬(c.hist.size ≤ 4096 ∧ c.look.size ≤ s.cfg.maxMatch ∧ 1 ≤ c.m ∧ c.m ≤ 4096)) ∨
        (c.code = 0x01 ∧ c.n ≠ c.input.size))) ∧
    ((∃ t, step s = .next t) ↔
      (s.phase ≠ .run ∧
        ((c.code = 0x01 ∧ c.n = c.input.size) ∨
          (c.code = 0x02 ∧ c.hist.size ≤ 4096 ∧ c.look.size ≤ s.cfg.maxMatch ∧ 1 ≤ c.m ∧ c.m ≤ 4096))))

/-- The host fixes the configuration between operations, to legal values only (R6, R200); a change in RUN, which the
host never makes (R195 (5)), is refused (log 9). -/
def Obligations.ConfigurationChangesOnlyBetweenOperations : Prop :=
  ∀ (s : State) (cfg : Config) (rest : List HostMove), s.host = ⟨false, .configure cfg⟩ :: rest →
    (s.phase ≠ .run → cfg.Legal → step s = .next { s with cfg := cfg, host := rest }) ∧
    (s.phase = .run → step s = .refused .configureWhileRunning) ∧
    (s.phase ≠ .run → ¬cfg.Legal → step s = .refused .illegalConfiguration)

/-- The host reads `OUT` exactly in DONE with SUCCESS, and `mf_len` and `mf_disp` exactly in DONE (R61, R194). -/
def Obligations.HostReadsResultsOnlyInDone : Prop :=
  ∀ s : State,
    (∀ bytes, hostReadsOut s = some bytes ↔ s.phase = .done ∧ s.status = .success ∧ bytes = s.out) ∧
    (∀ r, hostReadsMatch s = some r ↔ s.phase = .done ∧ r = (s.mfLen.toNat, s.mfDisp.toNat)) ∧
    (s.phase ≠ .done → response s = none)

/-! Whole-machine rules. -/

/-- No instruction and no step but a `configure` move changes the configuration (R20). -/
def Obligations.NoOperationChangesTheConfiguration : Prop :=
  (∀ (i : Instr) (s t : State), exec i s = .next t → t.cfg = s.cfg) ∧
  (∀ s t : State, step s = .next t → t.cfg ≠ s.cfg →
    ∃ wait cfg rest, s.host = ⟨wait, .configure cfg⟩ :: rest ∧ t.cfg = cfg ∧ s.phase ≠ .run)

/-- `status` is written only when an operation completes, or by reset (R23, R35). -/
def Obligations.StatusIsWrittenOnlyOnCompletion : Prop :=
  ∀ s t : State, step s = .next t → t.status ≠ s.status →
    t.phase = .done ∨ (∃ wait rest, s.host = ⟨wait, .reset⟩ :: rest ∧ t.status = .none)

/-- `mf_len` and `mf_disp` are written only by a FIND_MATCH command or by reset; ENCODE does not write them (R30). -/
def Obligations.OnlyFindMatchWritesTheMatchRegisters : Prop :=
  ∀ s t : State, step s = .next t → (t.mfLen ≠ s.mfLen ∨ t.mfDisp ≠ s.mfDisp) →
    (∃ wait c rest, s.host = ⟨wait, .command c⟩ :: rest ∧ c.code = 0x02 ∧ t.phase = .done) ∨
    (∃ wait rest, s.host = ⟨wait, .reset⟩ :: rest)

/-- In RUN no step but a reset changes a byte of the input, the operand of the ENCODE in progress (R50, R193). -/
def Obligations.RunningBlockNeverWritesTheInput : Prop :=
  ∀ s t : State, step s = .next t → s.phase = .run →
    (∃ wait rest, s.host = ⟨wait, .reset⟩ :: rest) ∨ ∀ a, t.input.read? a = s.input.read? a

/-- A step of the block in RUN only appends to `OUT`, at most one block of at most 33 bytes, or fails with
ALLOC_FAILURE and empties it (R51, R60, R135). -/
def Obligations.RunningBlockOnlyAppendsToOut : Prop :=
  ∀ s t : State, s.phase = .run → s.hostSilent = true → s.blkBytes.length ≤ 32 → step s = .next t →
    (∃ bytes : List Byte, t.out = s.out ++ bytes ∧ bytes.length ≤ 33) ∨
      (t.out = [] ∧ t.status = .allocFailure ∧ t.phase = .done)

/-- A TOKEN step that does not end the operation moves the cursor forward, by 1 for a literal or by the length of the
match, never past `len`, and leaves 1 to 8 tokens in the block (R24, R124, R133, R137). -/
def Obligations.TokenStepMovesTheCursorForward : Prop :=
  ∀ s t : State, s.Inv → s.phase = .run → s.hostSilent = true → s.cursor.toNat < s.len.toNat →
    step s = .next t → t.phase = .run →
    t.cursor.toNat = s.cursor.toNat + (tokenAt s.cfg s.input s.cursor.toNat).consumed ∧
    s.cursor.toNat < t.cursor.toNat ∧ t.cursor.toNat ≤ t.len.toNat ∧ t.len = s.len ∧
    t.blkCount.toNat = (if s.blkCount.toNat = 8 then 1 else s.blkCount.toNat + 1) ∧ t.blkCount.toNat ≤ 8

/-- The invariant holds right after reset. -/
def Obligations.ResetMeetsTheInvariant : Prop := State.reset.Inv

/-- Every step keeps the invariant, which contains 10_state.md R36 (a) to (f), the canonical form of the input, the
legality of the configuration, and that a failed operation leaves `OUT` empty. -/
def Obligations.StepKeepsTheInvariant : Prop :=
  ∀ s t : State, s.Inv → step s = .next t → t.Inv

/-- In a state that meets the invariant, a step never faults; and with the host silent in RUN it answers a next
state: exactly one of TOKEN and FINISH is enabled (R121, R173). -/
def Obligations.InvariantStatesNeverFault : Prop :=
  ∀ s : State, s.Inv →
    (∀ e, step s ≠ .fault e) ∧ (s.phase = .run → s.hostSilent = true → ∃ t, step s = .next t)

/-- An accepted ENCODE reaches DONE within `N + 2` steps (R140), whatever state the block was in (R191),
and its response is the function `encodeResponse` of the operand and the configuration: INPUT_TOO_LARGE first (R174),
ALLOC_FAILURE exactly when the whole stream does not fit (R172), else the header and the blocks of the greedy parse
(R70, R136, R138, R141). The host waits for DONE before any later move. -/
def Obligations.EncodeRunsToItsResponse : Prop :=
  ∀ (s : State) (wait : Bool) (c : HostCommand) (rest : List HostMove),
    s.host = ⟨wait, .command c⟩ :: rest → (∀ mv ∈ rest, mv.wait = true) → s.phase ≠ .run → s.cfg.Legal →
    c.code = 0x01 → c.n = c.input.size →
    ∃ (k : Nat) (t : State), 1 ≤ k ∧ k ≤ c.n + 2 ∧ Host.Core.run core k s = .next t ∧
      t.phase = .done ∧ t.host = rest ∧ response t = some (encodeResponse s.cfg c.input)

/-- Two blocks with one configuration whose next move is the same ENCODE, whatever each did before, have the same phase,
`OUT` and response at every later step, through all the host's later moves: no earlier operation affects them (R191).
`response` after a later FIND_MATCH is the model's choice (log 28). -/
def Obligations.ResponsesDoNotDependOnEarlierOperations : Prop :=
  ∀ (s s' : State) (wait wait' : Bool) (c : HostCommand) (rest : List HostMove) (k : Nat) (t t' : State),
    s.host = ⟨wait, .command c⟩ :: rest → s'.host = ⟨wait', .command c⟩ :: rest →
    s.phase ≠ .run → s'.phase ≠ .run → s.cfg = s'.cfg → c.code = 0x01 →
    Host.Core.run core (k + 1) s = .next t → Host.Core.run core (k + 1) s' = .next t' →
    t.phase = t'.phase ∧ t.out = t'.out ∧ response t = response t'

/-- The greedy parse: the tokens consume exactly `N` bytes (R137), each match has a length of 3 to `MAX_MATCH` that
stays before `N` and a displacement of at most the cursor and 4096 (R81 (b), (c)), and the first token is a literal. -/
def Obligations.ParseIsValidAndExact : Prop :=
  ∀ (cfg : Config) (input : Memory), cfg.Legal →
    consumedBy (parse cfg input) = input.size ∧
    (∀ before t after, parse cfg input = before ++ t :: after →
      t.Valid cfg (consumedBy before) input.size) ∧
    (∀ t after, parse cfg input = t :: after → t = .literal (input.read 0))

/-- `T` tokens make `ceil(T / 8)` blocks (R138): the stream is 4 header bytes, that many flag bytes and the tokens'
bytes, and no others (R70, R82); and it is at most `4 + N + ceil(N / 8)` bytes long (R139). -/
def Obligations.StreamSizeIsBounded : Prop :=
  ∀ (cfg : Config) (input : Memory), cfg.Legal →
    (encodedStream cfg input).length =
      4 + ((parse cfg input).length + 7) / 8 + (tokenBytes (parse cfg input)).length ∧
    (encodedStream cfg input).length ≤ 4 + input.size + (input.size + 7) / 8

/-- With room for `4 + N + ceil(N / 8)` bytes, an ENCODE within the size bound succeeds whatever the input (R139,
R172). -/
def Obligations.EnoughCapacityMeansSuccess : Prop :=
  ∀ (cfg : Config) (input : Memory), cfg.Legal → input.size ≤ 0xFFFFFF →
    fits cfg (4 + input.size + (input.size + 7) / 8) = true →
    encodeResponse cfg input = .success (encodedStream cfg input) (encodedStream cfg input).length

/-- The stream loses nothing to a reader of the model's own (log 27): it takes each token's fields as R79, a derived
rule, says, copies a match one byte at a time, so that it may overlap itself, and stops at `N` bytes. It gets back the
input byte for byte, for every input and every legal `MAX_MATCH`. The decoder of the format is out of the spec's scope
(00_scope.md R4), so the reader is the model's deduction and no unit of LZE. -/
def Obligations.StreamReadsBackToTheInput : Prop :=
  ∀ (cfg : Config) (input : Memory), cfg.Legal →
    readBlocks input.size ((encodedStream cfg input).drop 4) = some input.toBytes
end

