-- ==== Sys2Proof/Laws/Encoding.lean ====
section
/-!
SUPPORT. The shifts, masks and ors of the serializers and of the header as arithmetic on naturals, and the bytes of a
big-endian word.
-/

namespace Sys2Proof

open Machine

/-- `(a << 4) | b` for a 4-bit `b`. -/
theorem shiftLeft_four_or (a b : Nat) (h : b < 16) : (a <<< 4) ||| b = a * 16 + b := by
  have := Nat.two_pow_add_eq_or_of_lt (i := 4) h a
  rw [Nat.shiftLeft_eq, Nat.mul_comm a (2 ^ 4), ← this]

/-- `0x10 | b` for a 4-bit `b`. -/
theorem sixteen_or (b : Nat) (h : b < 16) : 0x10 ||| b = 16 + b := by
  simpa using shiftLeft_four_or 1 b h

theorem and_fifteen (a : Nat) : a &&& 0xF = a % 16 := Nat.and_two_pow_sub_one_eq_mod a 4

theorem and_255 (a : Nat) : a &&& 0xFF = a % 256 := Nat.and_two_pow_sub_one_eq_mod a 8

theorem shiftRight_four (a : Nat) : a >>> 4 = a / 16 := Nat.shiftRight_eq_div_pow a 4

theorem shiftRight_eight (a : Nat) : a >>> 8 = a / 256 := Nat.shiftRight_eq_div_pow a 8

theorem shiftRight_twelve (a : Nat) : a >>> 12 = a / 4096 := Nat.shiftRight_eq_div_pow a 12

/-- Bytes of naturals are equal when the naturals agree modulo 256. -/
theorem byte_congr {a b : Nat} (h : a % 256 = b % 256) : BitVec.ofNat 8 a = BitVec.ofNat 8 b := by
  apply BitVec.eq_of_toNat_eq
  simpa using h

/-- A byte is the byte of its number. -/
theorem byte_ofNat_toNat (b : Byte) : BitVec.ofNat 8 b.toNat = b := by simp

theorem shortBytes_eq {l d : Nat} (h2 : d ≤ 4096) :
    shortBytes l d = [BitVec.ofNat 8 ((l - 1) * 16 + (d - 1) / 256), BitVec.ofNat 8 ((d - 1) % 256)] := by
  unfold shortBytes
  rw [shiftRight_eight, and_255, shiftLeft_four_or _ _ (by omega)]

theorem mediumBytes_eq {l d : Nat} (h1 : l ≤ 272) (h2 : d ≤ 4096) :
    mediumBytes l d = [BitVec.ofNat 8 ((l - 17) / 16), BitVec.ofNat 8 ((l - 17) % 16 * 16 + (d - 1) / 256),
      BitVec.ofNat 8 ((d - 1) % 256)] := by
  simp only [mediumBytes]
  rw [shiftRight_four, shiftRight_eight, and_255, and_fifteen, shiftLeft_four_or _ _ (by omega),
    Nat.mod_eq_of_lt (show l - 17 < 256 by omega)]

theorem longBytes_eq {l d : Nat} (h1 : l ≤ 0x10110) (h2 : d ≤ 4096) :
    longBytes l d = [BitVec.ofNat 8 (16 + (l - 273) / 4096), BitVec.ofNat 8 ((l - 273) / 16 % 256),
      BitVec.ofNat 8 ((l - 273) % 16 * 16 + (d - 1) / 256), BitVec.ofNat 8 ((d - 1) % 256)] := by
  simp only [longBytes]
  rw [shiftRight_twelve, shiftRight_four, shiftRight_eight, and_255, and_255, and_fifteen,
    shiftLeft_four_or _ _ (by omega), sixteen_or _ (by omega)]

theorem headerBytes_eq (cfg : Config) (n : Nat) :
    headerBytes cfg n = [0x11, BitVec.ofNat 8 (n % 256), BitVec.ofNat 8 (n / 256 % 256),
      BitVec.ofNat 8 (n / 2 ^ cfg.hdrB3Shift.amount % 256)] := by
  unfold headerBytes
  rw [and_255, and_255, and_255, shiftRight_eight, Nat.shiftRight_eq_div_pow]
  rfl

@[simp] theorem headerBytes_length (cfg : Config) (n : Nat) : (headerBytes cfg n).length = 4 := rfl

@[simp] theorem shortBytes_length (l d : Nat) : (shortBytes l d).length = 2 := rfl
@[simp] theorem mediumBytes_length (l d : Nat) : (mediumBytes l d).length = 3 := rfl
@[simp] theorem longBytes_length (l d : Nat) : (longBytes l d).length = 4 := rfl

/-- A match is 2, 3 or 4 bytes. -/
theorem matchBytes_length (l d : Nat) :
    (matchBytes l d).length = if l ≤ 16 then 2 else if l ≤ 272 then 3 else 4 := by
  unfold matchBytes
  split
  · rfl
  · split <;> rfl

@[simp] theorem beBytes_length (k w : Nat) : (beBytes k w).length = k := by
  induction k with
  | zero => rfl
  | succ k ih => simp [beBytes, ih]

theorem beBytes_two (w : Nat) : beBytes 2 w = [BitVec.ofNat 8 (w / 256), BitVec.ofNat 8 w] := by simp [beBytes]

theorem beBytes_three (w : Nat) :
    beBytes 3 w = [BitVec.ofNat 8 (w / 65536), BitVec.ofNat 8 (w / 256), BitVec.ofNat 8 w] := by simp [beBytes]

theorem beBytes_four (w : Nat) :
    beBytes 4 w = [BitVec.ofNat 8 (w / 16777216), BitVec.ofNat 8 (w / 65536), BitVec.ofNat 8 (w / 256),
      BitVec.ofNat 8 w] := by simp [beBytes]

/-- The four bytes of a word written as four byte-sized digits. -/
theorem beBytes_four_digits {a b c d : Nat} (hb : b < 256) (hc : c < 256) (hd : d < 256) :
    beBytes 4 (a * 2 ^ 24 + b * 2 ^ 16 + c * 2 ^ 8 + d) =
      [BitVec.ofNat 8 a, BitVec.ofNat 8 b, BitVec.ofNat 8 c, BitVec.ofNat 8 d] := by
  rw [beBytes_four]
  refine List.cons_eq_cons.2 ⟨byte_congr ?_, List.cons_eq_cons.2 ⟨byte_congr ?_,
    List.cons_eq_cons.2 ⟨byte_congr ?_, List.cons_eq_cons.2 ⟨byte_congr ?_, rfl⟩⟩⟩⟩ <;> omega

/-- The header's word, byte by byte (R71). -/
theorem beBytes_wordHeader (shift : HdrShift) (n : Nat) :
    beBytes 4 (wordHeader shift n) = [0x11, BitVec.ofNat 8 (n % 256), BitVec.ofNat 8 (n / 256 % 256),
      BitVec.ofNat 8 (n / 2 ^ shift.amount % 256)] :=
  beBytes_four_digits (a := tag) (Nat.mod_lt _ (by decide)) (Nat.mod_lt _ (by decide))
    (Nat.mod_lt _ (by decide))

@[simp] theorem hiNibble_lt (b : Byte) : hiNibble b < 16 := by
  have := b.isLt
  unfold hiNibble
  omega

@[simp] theorem loNibble_lt (b : Byte) : loNibble b < 16 := Nat.mod_lt _ (by decide)

/-- A byte is its two nibbles. -/
theorem nibbles (b : Byte) : hiNibble b * 16 + loNibble b = b.toNat := by
  unfold hiNibble loNibble
  omega

end Sys2Proof
end

