-- ==== Sys2Proof/Laws/Flags.lean ====
section
/-!
SUPPORT. The flag byte, bit by bit.
-/

namespace Sys2Proof.Machine

/-- The bit of slot `s` is bit `7 - s` and no other (R26). -/
theorem slotBit_getLsbD {slot k : Nat} (hs : slot < 8) (hk : k < 8) :
    (slotBit slot).getLsbD k = decide (k = 7 - slot) := by
  have h : ∀ s k : Fin 8, (slotBit s).getLsbD k = decide (k.val = 7 - s.val) := by decide
  exact h ⟨slot, hs⟩ ⟨k, hk⟩

/-- The bit of slot `s` has the weight `2 ^ (7 - s)`. -/
theorem slotBit_eq {slot : Nat} (hs : slot < 8) : slotBit slot = BitVec.ofNat 8 (2 ^ (7 - slot)) := by
  have h : ∀ s : Fin 8, slotBit s = BitVec.ofNat 8 (2 ^ (7 - s.val)) := by decide
  exact h ⟨slot, hs⟩

/-- Marking a slot sets its bit and leaves the others. -/
theorem markMatch_getLsbD {flag : Byte} {slot k : Nat} (hs : slot < 8) (hk : k < 8) :
    (markMatch flag slot).getLsbD k = (flag.getLsbD k || decide (k = 7 - slot)) := by
  unfold markMatch
  rw [BitVec.getLsbD_or, slotBit_getLsbD hs hk]

end Sys2Proof.Machine
end

