-- ==== Sys2Proof/Laws/MatchFinder.lean ====
section
/-!
SUPPORT. The match finder's scan: what it has found after any number of candidates.
-/

namespace Sys2Proof.Machine

/-- The run counter goes on from `k` matches, stops within the lookahead, and stops early only at a mismatch (R102). -/
theorem runFrom_spec (w : Nat → Byte) (h i : Nat) (n k : Nat) (hk : ∀ j < k, w (i + j) = w (h + j)) :
    k ≤ runFrom w h i n k ∧ runFrom w h i n k ≤ k + n ∧ (∀ j < runFrom w h i n k, w (i + j) = w (h + j)) ∧
      (runFrom w h i n k < k + n → w (i + runFrom w h i n k) ≠ w (h + runFrom w h i n k)) := by
  induction n generalizing k with
  | zero => exact ⟨le_rfl, le_rfl, hk, fun h => absurd h (by simp [runFrom])⟩
  | succ n ih =>
    unfold runFrom
    split
    · rename_i he
      obtain ⟨h1, h2, h3, h4⟩ := ih (k + 1) fun j hj => by
        rcases Nat.lt_succ_iff_lt_or_eq.1 hj with h | h
        · exact hk j h
        · rw [h]; exact he
      exact ⟨by omega, by omega, h3, fun h => h4 (by omega)⟩
    · exact ⟨le_rfl, by omega, hk, fun _ => ‹_›⟩

/-- The run length of a displacement is unique. -/
theorem IsRun_unique {w : Nat → Byte} {h a d k k' : Nat} (hk : IsRun w h a d k) (hk' : IsRun w h a d k') :
    k = k' := by
  obtain ⟨a1, a2, a3⟩ := hk
  obtain ⟨b1, b2, b3⟩ := hk'
  rcases Nat.lt_trichotomy k k' with hlt | heq | hgt
  · exact absurd (b2 k hlt) (a3 (by omega))
  · exact heq
  · exact absurd (a2 k' hgt) (b3 (by omega))

/-- The count the scan makes for a candidate is the run length of its displacement. -/
theorem runFrom_isRun (w : Nat → Byte) (h a i : Nat) (hi : i ≤ h) : IsRun w h a (h - i) (runFrom w h i a 0) := by
  obtain ⟨-, h2, h3, h4⟩ := runFrom_spec w h i a 0 (by simp)
  have e : h - (h - i) = i := by omega
  unfold IsRun
  rw [e]
  exact ⟨by omega, h3, fun hlt => h4 (by omega)⟩

/-- The best of the candidates below `c`: the largest run, and the largest displacement among the largest. -/
def BestBelow (w : Nat → Byte) (h a c : Nat) (best : Nat × Nat) : Prop :=
  best.1 ≤ a ∧ (∀ i < c, ∀ k, IsRun w h a (h - i) k → k ≤ best.1) ∧ (best.1 = 0 → best.2 = 0) ∧
    (1 ≤ best.1 → ∃ i < c, best.2 = h - i ∧ IsRun w h a (h - i) best.1 ∧
      ∀ i' < c, IsRun w h a (h - i') best.1 → h - i' ≤ best.2)

theorem scan_spec (w : Nat → Byte) (h a : Nat) (n i : Nat) (best : Nat × Nat) (hi : i + n ≤ h)
    (hb : BestBelow w h a i best) : BestBelow w h a (i + n) (scan w h a n i best) := by
  induction n generalizing i best with
  | zero => exact hb
  | succ n ih =>
    have hr := runFrom_isRun w h a i (by omega)
    set k := runFrom w h i a 0 with hk
    have hb' : BestBelow w h a (i + 1) (if best.1 < k then (k, h - i) else best) := by
      obtain ⟨b1, b2, b3, b4⟩ := hb
      split
      · rename_i hlt
        refine ⟨hr.1, fun i' hi' k' hk' => ?_, fun h0 => absurd h0 (by simp only; omega),
          fun _ => ⟨i, by omega, rfl, hr, fun i' hi' hk' => ?_⟩⟩
        · rcases Nat.lt_succ_iff_lt_or_eq.1 hi' with h | h
          · exact le_trans (b2 i' h k' hk') hlt.le
          · rw [h] at hk'; rw [IsRun_unique hk' hr]
        · rcases Nat.lt_succ_iff_lt_or_eq.1 hi' with h | h
          · exact absurd (b2 i' h _ hk') (by simp only; omega)
          · rw [h]
      · rename_i hlt
        refine ⟨b1, fun i' hi' k' hk' => ?_, b3, fun h1 => ?_⟩
        · rcases Nat.lt_succ_iff_lt_or_eq.1 hi' with h | h
          · exact b2 i' h k' hk'
          · rw [h] at hk'; rw [IsRun_unique hk' hr]; omega
        · obtain ⟨i0, c1, c2, c3, c4⟩ := b4 h1
          refine ⟨i0, by omega, c2, c3, fun i' hi' hk' => ?_⟩
          rcases Nat.lt_succ_iff_lt_or_eq.1 hi' with h | h
          · exact c4 i' h hk'
          · rw [c2, h]; omega
    unfold scan
    simp only
    rw [← hk]
    generalize (if best.1 < k then (k, h - i) else best) = best' at hb' ⊢
    split
    · rename_i hfull
      obtain ⟨b1, b2, b3, b4⟩ := hb'
      refine ⟨b1, fun i' _ k' hk' => by rw [hfull]; exact hk'.1, b3, fun h1 => ?_⟩
      obtain ⟨i0, c1, c2, c3, c4⟩ := b4 h1
      refine ⟨i0, by omega, c2, c3, fun i' hi' hk' => ?_⟩
      by_cases h : i' < i + 1
      · exact c4 i' h hk'
      · rw [c2]; omega
    · have := ih (i + 1) _ (by omega) hb'
      rwa [show i + 1 + n = i + (n + 1) by omega] at this

/-- The finder's answer is the best of the candidates at displacements from `m` up (R102 to R104). -/
theorem findMatch_spec (w : Nat → Byte) (h a m : Nat) (hm : 1 ≤ m) (ha : a ≠ 0) :
    BestBelow w h a (h + 1 - m) (findMatch w h a m) := by
  unfold findMatch
  rw [if_neg ha]
  have s := scan_spec w h a (h + 1 - m) 0 (0, 0) (by omega)
    ⟨by simp, by simp, by simp, by simp⟩
  rwa [Nat.zero_add] at s

/-- The finder reads only the bytes of `W = H ++ A` (R105). -/
theorem runFrom_congr {w w' : Nat → Byte} {h a i : Nat} (hi : i ≤ h) (hw : ∀ j < h + a, w j = w' j) (n k : Nat)
    (hn : k + n ≤ a) : runFrom w h i n k = runFrom w' h i n k := by
  induction n generalizing k with
  | zero => rfl
  | succ n ih =>
    unfold runFrom
    rw [hw (i + k) (by omega), hw (h + k) (by omega), ih (k + 1) (by omega)]

theorem scan_congr {w w' : Nat → Byte} {h a : Nat} (hw : ∀ j < h + a, w j = w' j) (n i : Nat) (best : Nat × Nat)
    (hi : i + n ≤ h + 1) : scan w h a n i best = scan w' h a n i best := by
  induction n generalizing i best with
  | zero => rfl
  | succ n ih =>
    unfold scan
    simp only
    rw [runFrom_congr (show i ≤ h by omega) hw a 0 (by omega), ih (i + 1) _ (by omega)]

theorem findMatch_congr {w w' : Nat → Byte} {h a m : Nat} (hm : 1 ≤ m) (hw : ∀ j < h + a, w j = w' j) :
    findMatch w h a m = findMatch w' h a m := by
  unfold findMatch
  rw [scan_congr hw _ _ _ (by omega)]

/-- The finder's answer is within its operands (R105). -/
theorem findMatch_bounds (w : Nat → Byte) (h a m : Nat) (hm : 1 ≤ m) :
    (findMatch w h a m).1 ≤ a ∧ (findMatch w h a m).2 ≤ h ∧
      ((findMatch w h a m).1 = 0 → (findMatch w h a m).2 = 0) ∧
      (1 ≤ (findMatch w h a m).1 → m ≤ (findMatch w h a m).2 ∧
        ∀ j < (findMatch w h a m).1, w (h - (findMatch w h a m).2 + j) = w (h + j)) := by
  by_cases ha : a = 0
  · simp [findMatch, ha]
  · obtain ⟨b1, -, b3, b4⟩ := findMatch_spec w h a m hm ha
    refine ⟨b1, ?_, b3, fun h1 => ?_⟩
    · by_cases h1 : 1 ≤ (findMatch w h a m).1
      · obtain ⟨i, c1, c2, -⟩ := b4 h1
        omega
      · rw [b3 (by omega)]
        omega
    · obtain ⟨i, c1, c2, c3, -⟩ := b4 h1
      exact ⟨by omega, by rw [c2]; exact c3.2.1⟩

end Sys2Proof.Machine
end

