-- ==== Sys2Proof/Laws/Memory.lean ====
section
/-!
SUPPORT. The laws of the byte spaces: the canonical form is kept by every operation that makes a space, it makes equal
byte strings equal data, and reading gives back the bytes a space was made of.
-/

namespace Sys2Proof.Memory

@[simp] theorem lookup_nil (a : Nat) : lookup a [] = unlisted := rfl

@[simp] theorem zeros_size (n : Nat) : (zeros n).size = n := rfl
@[simp] theorem zeros_read (n a : Nat) : (zeros n).read a = 0x00 := rfl
@[simp] theorem zeros_wf (n : Nat) : (zeros n).wf = true := rfl
@[simp] theorem empty_size : empty.size = 0 := rfl
@[simp] theorem empty_wf : empty.wf = true := rfl
@[simp] theorem ofBytes_size (bs : List Byte) : (ofBytes bs).size = bs.length := rfl

/-- A read inside the space gives a byte; a read outside gives none. -/
theorem read?_eq_some {m : Memory} {a : Nat} {b : Byte} : m.read? a = some b ↔ a < m.size ∧ m.read a = b := by
  unfold read?
  split <;> simp_all

theorem read?_eq_none {m : Memory} {a : Nat} : m.read? a = none ↔ m.size ≤ a := by
  unfold read?
  split <;> simp_all

theorem cellsFrom_ok (size : Nat) (bs : List Byte) (lo a : Nat) (hlo : lo ≤ a) (hs : a + bs.length ≤ size) :
    cellsOk size lo (cellsFrom a bs) = true := by
  induction bs generalizing lo a with
  | nil => rfl
  | cons b rest ih =>
    simp only [List.length_cons] at hs
    simp only [cellsFrom]
    split
    · exact ih lo (a + 1) (by omega) (by omega)
    · simp only [cellsOk, Bool.and_eq_true, decide_eq_true_eq]
      exact ⟨⟨⟨hlo, by omega⟩, ‹_›⟩, ih (a + 1) (a + 1) le_rfl (by omega)⟩

/-- Making a space of a byte string gives the canonical form. -/
@[simp] theorem ofBytes_wf (bs : List Byte) : (ofBytes bs).wf = true :=
  cellsFrom_ok _ bs 0 0 le_rfl (by simp [ofBytes])

theorem lookup_cellsFrom_below (bs : List Byte) (a j : Nat) (h : j < a) : lookup j (cellsFrom a bs) = unlisted := by
  induction bs generalizing a with
  | nil => rfl
  | cons b rest ih =>
    simp only [cellsFrom]
    split
    · exact ih (a + 1) (by omega)
    · simp only [lookup, if_neg (show a ≠ j by omega)]
      exact ih (a + 1) (by omega)

theorem lookup_cellsFrom (bs : List Byte) (a k : Nat) : lookup (a + k) (cellsFrom a bs) = bs.getD k unlisted := by
  induction bs generalizing a k with
  | nil => simp [cellsFrom]
  | cons b rest ih =>
    cases k with
    | zero =>
      simp only [cellsFrom]
      split
      · rename_i hb
        rw [lookup_cellsFrom_below rest (a + 1) (a + 0) (by omega)]
        simp [hb]
      · simp [lookup]
    | succ k =>
      have h := ih (a + 1) k
      rw [show a + 1 + k = a + (k + 1) by omega] at h
      simp only [cellsFrom]
      split
      · simpa using h
      · simpa [lookup] using h

/-- Reading a space made of a byte string gives its bytes. -/
theorem ofBytes_read (bs : List Byte) (k : Nat) : (ofBytes bs).read k = bs.getD k 0x00 := by
  have h := lookup_cellsFrom bs 0 k
  simpa [read, ofBytes, unlisted] using h

/-- The byte string of a space made of a byte string is that byte string. -/
theorem toBytes_ofBytes (bs : List Byte) : (ofBytes bs).toBytes = bs := by
  apply List.ext_getElem
  · simp [toBytes]
  · intro k h1 h2
    simp [toBytes, ofBytes_read, h2]

@[simp] theorem toBytes_length (m : Memory) : m.toBytes.length = m.size := by simp [toBytes]

theorem lookup_of_below {size lo j : Nat} {cs : List Host.Cell} (h : cellsOk size lo cs = true) (hj : j < lo) :
    lookup j cs = unlisted := by
  induction cs generalizing lo with
  | nil => rfl
  | cons c rest ih =>
    obtain ⟨x, b⟩ := c
    simp only [cellsOk, Bool.and_eq_true, decide_eq_true_eq] at h
    obtain ⟨⟨⟨h1, -⟩, -⟩, h4⟩ := h
    simp only [lookup, if_neg (show x ≠ j by omega)]
    exact ih h4 (by omega)

theorem cells_ext {size lo : Nat} {cs ds : List Host.Cell} (hc : cellsOk size lo cs = true)
    (hd : cellsOk size lo ds = true) (h : ∀ j < size, lookup j cs = lookup j ds) : cs = ds := by
  induction cs generalizing lo ds with
  | nil =>
    cases ds with
    | nil => rfl
    | cons d rest =>
      obtain ⟨x, b⟩ := d
      simp only [cellsOk, Bool.and_eq_true, decide_eq_true_eq] at hd
      have := h x hd.1.1.2
      simp only [lookup, if_true] at this
      exact absurd this.symm hd.1.2
  | cons c rest ih =>
    obtain ⟨x, b⟩ := c
    simp only [cellsOk, Bool.and_eq_true, decide_eq_true_eq] at hc
    obtain ⟨⟨⟨hx1, hx2⟩, hx3⟩, hx4⟩ := hc
    cases ds with
    | nil =>
      have := h x hx2
      simp only [lookup, if_true] at this
      exact absurd this hx3
    | cons d rest' =>
      obtain ⟨y, b'⟩ := d
      simp only [cellsOk, Bool.and_eq_true, decide_eq_true_eq] at hd
      obtain ⟨⟨⟨hy1, hy2⟩, hy3⟩, hy4⟩ := hd
      have hxy : x = y := by
        by_contra hne
        rcases Nat.lt_or_gt_of_ne hne with hlt | hgt
        · have := h x hx2
          simp only [lookup, if_true, if_neg (show y ≠ x by omega)] at this
          rw [lookup_of_below hy4 (by omega)] at this
          exact hx3 this
        · have := h y hy2
          simp only [lookup, if_true, if_neg (show x ≠ y by omega)] at this
          rw [lookup_of_below hx4 (by omega)] at this
          exact hy3 this.symm
      subst hxy
      have hb : b = b' := by simpa [lookup] using h x hx2
      subst hb
      congr 1
      refine ih hx4 hy4 fun j hj => ?_
      by_cases hjx : j = x
      · subst hjx
        rw [lookup_of_below hx4 (by omega), lookup_of_below hy4 (by omega)]
      · have := h j hj
        simpa only [lookup, if_neg (Ne.symm hjx)] using this

/-- Equal byte strings are equal data: two canonical spaces of one size that read alike are one. -/
theorem ext_of_read {m n : Memory} (hm : m.wf = true) (hn : n.wf = true) (hs : m.size = n.size)
    (h : ∀ a < m.size, m.read a = n.read a) : m = n := by
  obtain ⟨ms, mc⟩ := m
  obtain ⟨ns, nc⟩ := n
  simp only at hs
  subst hs
  have : mc = nc := cells_ext hm hn h
  subst this
  rfl

end Sys2Proof.Memory
end

