-- ==== Sys2Proof/Laws/State.lean ====
section
/-!
SUPPORT. One lemma per field per update of State, so that no later proof unfolds a record update.
-/

namespace Sys2Proof.Machine

/-! `failWith` -/

@[simp] theorem failWith_phase (e : Status) (s : State) : (failWith e s).phase = .done := rfl
@[simp] theorem failWith_status (e : Status) (s : State) : (failWith e s).status = e := rfl
@[simp] theorem failWith_len (e : Status) (s : State) : (failWith e s).len = s.len := rfl
@[simp] theorem failWith_cursor (e : Status) (s : State) : (failWith e s).cursor = s.cursor := rfl
@[simp] theorem failWith_blkFlag (e : Status) (s : State) : (failWith e s).blkFlag = s.blkFlag := rfl
@[simp] theorem failWith_blkCount (e : Status) (s : State) : (failWith e s).blkCount = s.blkCount := rfl
@[simp] theorem failWith_blkBytes (e : Status) (s : State) : (failWith e s).blkBytes = s.blkBytes := rfl
@[simp] theorem failWith_out (e : Status) (s : State) : (failWith e s).out = [] := rfl
@[simp] theorem failWith_mfLen (e : Status) (s : State) : (failWith e s).mfLen = s.mfLen := rfl
@[simp] theorem failWith_mfDisp (e : Status) (s : State) : (failWith e s).mfDisp = s.mfDisp := rfl
@[simp] theorem failWith_cfg (e : Status) (s : State) : (failWith e s).cfg = s.cfg := rfl
@[simp] theorem failWith_input (e : Status) (s : State) : (failWith e s).input = s.input := rfl
@[simp] theorem failWith_host (e : Status) (s : State) : (failWith e s).host = s.host := rfl

/-! `succeed` -/

@[simp] theorem succeed_phase (s : State) : (succeed s).phase = .done := rfl
@[simp] theorem succeed_status (s : State) : (succeed s).status = .success := rfl
@[simp] theorem succeed_len (s : State) : (succeed s).len = s.len := rfl
@[simp] theorem succeed_cursor (s : State) : (succeed s).cursor = s.cursor := rfl
@[simp] theorem succeed_blkFlag (s : State) : (succeed s).blkFlag = s.blkFlag := rfl
@[simp] theorem succeed_blkCount (s : State) : (succeed s).blkCount = s.blkCount := rfl
@[simp] theorem succeed_blkBytes (s : State) : (succeed s).blkBytes = s.blkBytes := rfl
@[simp] theorem succeed_out (s : State) : (succeed s).out = s.out := rfl
@[simp] theorem succeed_mfLen (s : State) : (succeed s).mfLen = s.mfLen := rfl
@[simp] theorem succeed_mfDisp (s : State) : (succeed s).mfDisp = s.mfDisp := rfl
@[simp] theorem succeed_cfg (s : State) : (succeed s).cfg = s.cfg := rfl
@[simp] theorem succeed_input (s : State) : (succeed s).input = s.input := rfl
@[simp] theorem succeed_host (s : State) : (succeed s).host = s.host := rfl

/-! `clearBlock` -/

@[simp] theorem clearBlock_phase (s : State) : (clearBlock s).phase = s.phase := rfl
@[simp] theorem clearBlock_status (s : State) : (clearBlock s).status = s.status := rfl
@[simp] theorem clearBlock_len (s : State) : (clearBlock s).len = s.len := rfl
@[simp] theorem clearBlock_cursor (s : State) : (clearBlock s).cursor = s.cursor := rfl
@[simp] theorem clearBlock_blkFlag (s : State) : (clearBlock s).blkFlag = 0x00 := rfl
@[simp] theorem clearBlock_blkCount (s : State) : (clearBlock s).blkCount = 0 := rfl
@[simp] theorem clearBlock_blkBytes (s : State) : (clearBlock s).blkBytes = [] := rfl
@[simp] theorem clearBlock_out (s : State) : (clearBlock s).out = s.out := rfl
@[simp] theorem clearBlock_mfLen (s : State) : (clearBlock s).mfLen = s.mfLen := rfl
@[simp] theorem clearBlock_mfDisp (s : State) : (clearBlock s).mfDisp = s.mfDisp := rfl
@[simp] theorem clearBlock_cfg (s : State) : (clearBlock s).cfg = s.cfg := rfl
@[simp] theorem clearBlock_input (s : State) : (clearBlock s).input = s.input := rfl
@[simp] theorem clearBlock_host (s : State) : (clearBlock s).host = s.host := rfl

/-! `advanceSlot` -/

@[simp] theorem advanceSlot_phase (s : State) : (advanceSlot s).phase = s.phase := rfl
@[simp] theorem advanceSlot_status (s : State) : (advanceSlot s).status = s.status := rfl
@[simp] theorem advanceSlot_len (s : State) : (advanceSlot s).len = s.len := rfl
@[simp] theorem advanceSlot_cursor (s : State) : (advanceSlot s).cursor = s.cursor := rfl
@[simp] theorem advanceSlot_blkFlag (s : State) : (advanceSlot s).blkFlag = s.blkFlag := rfl
@[simp] theorem advanceSlot_blkCount (s : State) : (advanceSlot s).blkCount = s.blkCount + 1 := rfl
@[simp] theorem advanceSlot_blkBytes (s : State) : (advanceSlot s).blkBytes = s.blkBytes := rfl
@[simp] theorem advanceSlot_out (s : State) : (advanceSlot s).out = s.out := rfl
@[simp] theorem advanceSlot_mfLen (s : State) : (advanceSlot s).mfLen = s.mfLen := rfl
@[simp] theorem advanceSlot_mfDisp (s : State) : (advanceSlot s).mfDisp = s.mfDisp := rfl
@[simp] theorem advanceSlot_cfg (s : State) : (advanceSlot s).cfg = s.cfg := rfl
@[simp] theorem advanceSlot_input (s : State) : (advanceSlot s).input = s.input := rfl
@[simp] theorem advanceSlot_host (s : State) : (advanceSlot s).host = s.host := rfl

/-! `beginEncode` -/

@[simp] theorem beginEncode_phase (input : Memory) (n : Nat) (s : State) : (beginEncode input n s).phase = .run := rfl
@[simp] theorem beginEncode_status (input : Memory) (n : Nat) (s : State) : (beginEncode input n s).status = s.status := rfl
@[simp] theorem beginEncode_len (input : Memory) (n : Nat) (s : State) : (beginEncode input n s).len = BitVec.ofNat 24 n := rfl
@[simp] theorem beginEncode_cursor (input : Memory) (n : Nat) (s : State) : (beginEncode input n s).cursor = 0 := rfl
@[simp] theorem beginEncode_blkFlag (input : Memory) (n : Nat) (s : State) : (beginEncode input n s).blkFlag = 0x00 := rfl
@[simp] theorem beginEncode_blkCount (input : Memory) (n : Nat) (s : State) : (beginEncode input n s).blkCount = 0 := rfl
@[simp] theorem beginEncode_blkBytes (input : Memory) (n : Nat) (s : State) : (beginEncode input n s).blkBytes = [] := rfl
@[simp] theorem beginEncode_out (input : Memory) (n : Nat) (s : State) : (beginEncode input n s).out = [] := rfl
@[simp] theorem beginEncode_mfLen (input : Memory) (n : Nat) (s : State) : (beginEncode input n s).mfLen = s.mfLen := rfl
@[simp] theorem beginEncode_mfDisp (input : Memory) (n : Nat) (s : State) : (beginEncode input n s).mfDisp = s.mfDisp := rfl
@[simp] theorem beginEncode_cfg (input : Memory) (n : Nat) (s : State) : (beginEncode input n s).cfg = s.cfg := rfl
@[simp] theorem beginEncode_input (input : Memory) (n : Nat) (s : State) : (beginEncode input n s).input = input := rfl
@[simp] theorem beginEncode_host (input : Memory) (n : Nat) (s : State) : (beginEncode input n s).host = s.host := rfl

/-! `applyReset` -/

@[simp] theorem applyReset_phase (s : State) : (applyReset s).phase = .idle := rfl
@[simp] theorem applyReset_status (s : State) : (applyReset s).status = .none := rfl
@[simp] theorem applyReset_len (s : State) : (applyReset s).len = 0 := rfl
@[simp] theorem applyReset_cursor (s : State) : (applyReset s).cursor = 0 := rfl
@[simp] theorem applyReset_blkFlag (s : State) : (applyReset s).blkFlag = 0x00 := rfl
@[simp] theorem applyReset_blkCount (s : State) : (applyReset s).blkCount = 0 := rfl
@[simp] theorem applyReset_blkBytes (s : State) : (applyReset s).blkBytes = [] := rfl
@[simp] theorem applyReset_out (s : State) : (applyReset s).out = [] := rfl
@[simp] theorem applyReset_mfLen (s : State) : (applyReset s).mfLen = 0 := rfl
@[simp] theorem applyReset_mfDisp (s : State) : (applyReset s).mfDisp = 0 := rfl
@[simp] theorem applyReset_cfg (s : State) : (applyReset s).cfg = s.cfg := rfl
@[simp] theorem applyReset_input (s : State) : (applyReset s).input = .empty := rfl
@[simp] theorem applyReset_host (s : State) : (applyReset s).host = s.host := rfl

/-! `andThen` -/

@[simp] theorem andThen_next (s : State) (f : State → Result) : andThen (.next s) f = f s := rfl
@[simp] theorem andThen_fault (e : Fault) (f : State → Result) : andThen (.fault e) f = .fault e := rfl
@[simp] theorem andThen_refused (e : Refusal) (f : State → Result) : andThen (.refused e) f = .refused e := rfl

/-- A composition that goes on went on in both parts. -/
theorem andThen_eq_next {r : Result} {f : State → Result} {t : State} (h : andThen r f = .next t) :
    ∃ s, r = .next s ∧ f s = .next t := by
  cases r with
  | next s => exact ⟨s, rfl, h⟩
  | fault e => cases h
  | refused e => cases h

/-- A composition of a step in progress goes on in both parts, or the first part ended the operation. -/
theorem andThenRunning_eq_next {r : Result} {f : State → Result} {t : State} (h : andThenRunning r f = .next t) :
    ∃ s, r = .next s ∧ ((s.phase = .run ∧ f s = .next t) ∨ (s.phase ≠ .run ∧ t = s)) := by
  obtain ⟨s, hr, hs⟩ := andThen_eq_next h
  refine ⟨s, hr, ?_⟩
  by_cases hp : s.phase = .run
  · exact .inl ⟨hp, by simpa [hp] using hs⟩
  · refine .inr ⟨hp, ?_⟩
    simp only [if_neg hp] at hs
    injection hs with h'
    exact h'.symm

end Sys2Proof.Machine
end

