-- ==== Sys2Proof/Laws/Ops.lean ====
section
/-!
SUPPORT. For each shared operation, once, everything it can do.
-/

namespace Sys2Proof.Machine

/-! The legal ranges, as arithmetic -/

theorem findMatchOperandsOk_iff {cfg : Config} {hist look : Memory} {m : Nat} :
    findMatchOperandsOk cfg hist look m = true ↔
      hist.size ≤ 4096 ∧ look.size ≤ cfg.maxMatch ∧ 1 ≤ m ∧ m ≤ 4096 := by
  simp [findMatchOperandsOk, and_assoc]

theorem serializerOperandsOk_iff {lo hi l d : Nat} :
    serializerOperandsOk lo hi l d = true ↔ lo ≤ l ∧ l ≤ hi ∧ 1 ≤ d ∧ d ≤ 4096 := by
  simp [serializerOperandsOk, and_assoc]

theorem tokMatchOperandsOk_iff {s : State} {l d : Nat} :
    tokMatchOperandsOk s l d = true ↔
      3 ≤ l ∧ l ≤ s.cfg.maxMatch ∧ l ≤ 0x10110 ∧ s.cursor.toNat + l ≤ s.len.toNat ∧ 1 ≤ d ∧ d ≤ s.cursor.toNat ∧
        d ≤ 4096 := by
  simp [tokMatchOperandsOk, and_assoc]

/-! Appends to `OUT` -/

/-- With `INF` every length fits; with a capacity, those up to it. -/
theorem fits_iff (cfg : Config) (n : Nat) : fits cfg n = true ↔ ∀ c, cfg.outCapacity = some c → n ≤ c := by
  unfold fits
  split <;> simp_all

/-- What fits leaves room for anything shorter. -/
theorem fits_mono {cfg : Config} {m n : Nat} (hmn : m ≤ n) (h : fits cfg n = true) : fits cfg m = true := by
  rw [fits_iff] at *
  exact fun c hc => le_trans hmn (h c hc)

theorem hasRoom_eq (bytes : List Byte) (s : State) : hasRoom bytes s = fits s.cfg (s.out.length + bytes.length) := rfl

@[simp] theorem blockImage_length (s : State) : (blockImage s).length = s.blkBytes.length + 1 := rfl

theorem outAppend_of_room {bytes : List Byte} {s : State} (h : hasRoom bytes s = true) :
    outAppend bytes s = { s with out := s.out ++ bytes } := by
  unfold outAppend
  rw [if_pos h]

theorem outAppend_of_no_room {bytes : List Byte} {s : State} (h : hasRoom bytes s = false) :
    outAppend bytes s = failWith .allocFailure s := by
  unfold outAppend
  rw [if_neg (by simp [h])]

theorem flush_of_room {s : State} (h : hasRoom (blockImage s) s = true) :
    flush s = clearBlock { s with out := s.out ++ blockImage s } := by
  unfold flush
  rw [if_pos h, outAppend_of_room h]

theorem flush_of_no_room {s : State} (h : hasRoom (blockImage s) s = false) :
    flush s = failWith .allocFailure s := by
  unfold flush
  rw [if_neg (by simp [h]), outAppend_of_no_room h]

/-! The block buffer -/

/-- An append to the block buffer that goes on changes its bytes only, and they stay within the buffer. -/
theorem blkAppend_eq_next {bytes : List Byte} {s t : State} (h : blkAppend bytes s = .next t) :
    t = { s with blkBytes := s.blkBytes ++ bytes } ∧ s.blkBytes.length + bytes.length ≤ blockBufferSize := by
  unfold blkAppend at h
  split at h
  · injection h with h
    exact ⟨h.symm, ‹_›⟩
  · cases h

theorem blkAppend_of_room {bytes : List Byte} {s : State}
    (h : s.blkBytes.length + bytes.length ≤ blockBufferSize) :
    blkAppend bytes s = .next { s with blkBytes := s.blkBytes ++ bytes } := by
  unfold blkAppend
  rw [if_pos h]

/-- A serializer that goes on has its operands in range and changes the block's bytes only. -/
theorem serialize_eq_next {lo hi l d : Nat} {bytes : List Byte} {s t : State}
    (h : serialize lo hi l d bytes s = .next t) :
    (lo ≤ l ∧ l ≤ hi ∧ 1 ≤ d ∧ d ≤ window) ∧ t = { s with blkBytes := s.blkBytes ++ bytes } := by
  unfold serialize at h
  split at h
  · rename_i hok
    simp only [serializerOperandsOk, Bool.and_eq_true, decide_eq_true_eq] at hok
    exact ⟨⟨hok.1.1.1, hok.1.1.2, hok.1.2, hok.2⟩, (blkAppend_eq_next h).1⟩
  · cases h

theorem serialize_of_ok {lo hi l d : Nat} {bytes : List Byte} {s : State}
    (hok : serializerOperandsOk lo hi l d = true) (hr : s.blkBytes.length + bytes.length ≤ blockBufferSize) :
    serialize lo hi l d bytes s = .next { s with blkBytes := s.blkBytes ++ bytes } := by
  unfold serialize
  rw [if_pos hok, blkAppend_of_room hr]

/-! The tokens and the block -/

/-- A literal that goes on is the byte at the cursor, in a free slot; it changes the block's bytes and the cursor. -/
theorem execTokLiteral_eq_next {b : Byte} {s t : State} (h : execTokLiteral b s = .next t) :
    readAtCursor s = some b ∧ s.blkCount.toNat < slots ∧
      t = { s with blkBytes := s.blkBytes ++ [b], cursor := s.cursor + 1 } := by
  unfold execTokLiteral at h
  split at h
  · cases h
  · rename_i byte hr
    split at h
    · rename_i hb
      subst hb
      split at h
      · rename_i hs
        obtain ⟨u, hu, ht⟩ := andThen_eq_next h
        injection ht with ht
        refine ⟨hr, hs, ?_⟩
        rw [← ht, (blkAppend_eq_next hu).1]
      · cases h
    · cases h

/-- A match that goes on has its operands in range and a free slot; it changes the block's bytes, the slot's flag bit
and the cursor. -/
theorem execTokMatch_eq_next {l d : Nat} {s t : State} (h : execTokMatch l d s = .next t) :
    tokMatchOperandsOk s l d = true ∧ s.blkCount.toNat < slots ∧
      t = { s with
        blkBytes := s.blkBytes ++ matchBytes l d
        blkFlag := markMatch s.blkFlag s.blkCount.toNat
        cursor := s.cursor + BitVec.ofNat 24 l } := by
  unfold execTokMatch at h
  split at h
  · rename_i hok
    split at h
    · rename_i hs
      obtain ⟨u, hu, ht⟩ := andThen_eq_next h
      injection ht with ht
      refine ⟨hok, hs, ?_⟩
      rw [← ht, (blkAppend_eq_next hu).1]
    · cases h
  · cases h

/-- A flush that goes on names the block's flag byte; it does nothing to an empty block and flushes any other. -/
theorem execBlkFlush_eq_next {f : Byte} {s t : State} (h : execBlkFlush f s = .next t) :
    f = s.blkFlag ∧ ((s.blkCount = 0 ∧ t = s) ∨ (s.blkCount ≠ 0 ∧ t = flush s)) := by
  unfold execBlkFlush at h
  split at h
  · split at h
    · injection h with h
      exact ⟨‹_›, .inl ⟨‹_›, h.symm⟩⟩
    · injection h with h
      exact ⟨‹_›, .inr ⟨‹_›, h.symm⟩⟩
  · cases h

/-! The commands -/

/-- A FIND_MATCH that goes on was accepted; it writes the result registers and completes. -/
theorem execFindMatch_eq_next {hist look : Memory} {m : Nat} {s t : State}
    (h : execFindMatch hist look m s = .next t) :
    s.phase ≠ .run ∧ findMatchOperandsOk s.cfg hist look m = true ∧
      t = succeed { s with
        mfLen := BitVec.ofNat 17 (commandMatch hist look m).1
        mfDisp := BitVec.ofNat 13 (commandMatch hist look m).2 } := by
  unfold execFindMatch at h
  split at h
  · cases h
  · split at h
    · injection h with h
      exact ⟨‹_›, ‹_›, h.symm⟩
    · cases h

/-- An ENCODE that goes on was accepted; it takes its START step. -/
theorem execEncode_eq_next {input : Memory} {n : Nat} {s t : State} (h : execEncode input n s = .next t) :
    s.phase ≠ .run ∧ n = input.size ∧ t = startEncode input n s := by
  unfold execEncode at h
  split at h
  · cases h
  · split at h
    · injection h with h
      exact ⟨‹_›, ‹_›, h.symm⟩
    · cases h

/-! The step -/

/-- With a silent host, a running block takes its own step. -/
theorem step_of_running {s : State} (hp : s.phase = .run)
    (hs : ∀ mv rest, s.host = mv :: rest → mv.wait = true) : step s = sequencerStep s := by
  unfold step nextStep
  split
  · rfl
  · rename_i mv rest hh
    rw [if_pos (by simp [heldBack, hp, hs mv rest hh])]

/-- A move of the host that comes now is taken off the list and happens. -/
theorem step_of_move {s : State} {mv : HostMove} {rest : List HostMove} (hh : s.host = mv :: rest)
    (hw : mv.wait = true → s.phase ≠ .run) : step s = hostEvent mv.event { s with host := rest } := by
  unfold step nextStep
  rw [hh]
  simp only
  rw [if_neg]
  simp only [heldBack, Bool.and_eq_true, decide_eq_true_eq, not_and]
  exact hw

end Sys2Proof.Machine
end

