-- ==== Sys2Proof/Laws/PerInstr.lean ====
section
/-!
SUPPORT. Statements about every instruction, one lemma per constructor.
-/

namespace Sys2Proof.Laws.EncodedLength

/-- The width spec/opcode_table.json gives the instruction's row, in bytes; a match token has the width of its tier. -/
def tableBytes : Instr → Nat
  | .encode _ _ => 1
  | .findMatch _ _ _ => 1
  | .hdr _ => 4
  | .blkFlush _ => 1
  | .tokLiteral _ => 1
  | .tokMatch l _ => if l ≤ 16 then 2 else if l ≤ 272 then 3 else 4
  | .encShort _ _ => 2
  | .encMedium _ _ => 3
  | .encLong _ _ => 4

/-- The encoder writes as many bytes as the table gives the row. -/
def Statement (i : Instr) : Prop := ∀ cfg : Config, (Sys2Proof.encode cfg i).length = tableBytes i

theorem encode (input : Memory) (n : Nat) : Statement (.encode input n) := fun _ => rfl

theorem findMatch (hist look : Memory) (m : Nat) : Statement (.findMatch hist look m) := fun _ => rfl

theorem hdr (n : BitVec 24) : Statement (.hdr n) := fun _ => beBytes_length 4 _

theorem blkFlush (f : Byte) : Statement (.blkFlush f) := fun _ => rfl

theorem tokLiteral (b : Byte) : Statement (.tokLiteral b) := fun _ => rfl

theorem tokMatch (l d : Nat) : Statement (.tokMatch l d) := by
  intro cfg
  simp only [Sys2Proof.encode, matchWordBytes, tableBytes]
  split
  · exact beBytes_length 2 _
  · split
    · exact beBytes_length 3 _
    · exact beBytes_length 4 _

theorem encShort (l d : Nat) : Statement (.encShort l d) := fun _ => beBytes_length 2 _

theorem encMedium (l d : Nat) : Statement (.encMedium l d) := fun _ => beBytes_length 3 _

theorem encLong (l d : Nat) : Statement (.encLong l d) := fun _ => beBytes_length 4 _

end Sys2Proof.Laws.EncodedLength
end

