-- ==== Sys2Proof/Laws/Step.lean ====
section
/-!
SUPPORT. Once, everything a step can do: the cases of a step, of a step of the running block, of a token and of START.
-/

namespace Sys2Proof.Machine

/-! Runs -/

/-- A run of one step more takes that step first. -/
theorem run_succ {s t : State} (h : step s = .next t) (k : Nat) :
    Host.Core.run core (k + 1) s = Host.Core.run core k t := by
  have h' : core.step s = .next t := h
  simp only [Host.Core.run, h']

/-! The block's own steps -/

/-- With the host silent, a running block takes its own step. -/
theorem step_of_silent {s : State} (hp : s.phase = .run) (hs : s.hostSilent = true) : step s = sequencerStep s := by
  apply step_of_running hp
  intro mv rest h
  unfold State.hostSilent at hs
  rw [h] at hs
  exact hs

/-- Below the end of an input that has `len` bytes, every offset of the query exists (40_match_finder.md R105). -/
theorem queryInRange_of_le {s : State} (h1 : s.cursor.toNat < s.len.toNat) (h2 : s.len.toNat ≤ s.input.size) :
    queryInRange s = true := by
  unfold queryInRange lookaheadLength
  simp only [Bool.and_eq_true, decide_eq_true_eq]
  constructor <;> omega

theorem sequencerStep_token {s : State} (hp : s.phase = .run) (h : s.cursor.toNat < s.len.toNat) :
    sequencerStep s = tokenStep s := by
  unfold sequencerStep
  rw [hp]
  simp only
  rw [if_pos h]

theorem sequencerStep_finish {s : State} (hp : s.phase = .run) (h : s.cursor.toNat = s.len.toNat) :
    sequencerStep s = finishStep s := by
  unfold sequencerStep
  rw [hp]
  simp only
  rw [if_neg (by omega), if_pos h]

theorem tokenStep_of_free {s : State} (hp : s.phase = .run) (h : s.blkCount.toNat ≠ slots) :
    tokenStep s = emitToken s := by
  unfold tokenStep flushIfFull
  rw [if_neg h]
  simp [andThenRunning, hp]

/-- A flush writes the block and starts a new one, or fails and keeps it. -/
theorem flush_cases (s : State) :
    (hasRoom (blockImage s) s = true ∧ flush s = clearBlock { s with out := s.out ++ blockImage s }) ∨
      (hasRoom (blockImage s) s = false ∧ flush s = failWith .allocFailure s) := by
  cases h : hasRoom (blockImage s) s with
  | true => exact .inl ⟨rfl, flush_of_room h⟩
  | false => exact .inr ⟨rfl, flush_of_no_room h⟩

/-- The flush micro-operation on a block that holds a token. -/
theorem execBlkFlush_of_nonempty {s : State} (h : s.blkCount ≠ 0) :
    exec (.blkFlush s.blkFlag) s = .next (flush s) := by
  simp only [exec, execBlkFlush, if_true, if_neg h]

/-- The token part of a TOKEN step: a literal or the finder's match. -/
theorem emitToken_cases {s t : State} (h : emitToken s = .next t) :
    queryInRange s = true ∧ s.blkCount.toNat < slots ∧
      (((packerMatch s).1 < minMatch ∧ t = { s with
          blkBytes := s.blkBytes ++ [s.input.read s.cursor.toNat]
          cursor := s.cursor + 1
          blkCount := s.blkCount + 1 }) ∨
        (minMatch ≤ (packerMatch s).1 ∧ tokMatchOperandsOk s (packerMatch s).1 (packerMatch s).2 = true ∧
          t = { s with
            blkBytes := s.blkBytes ++ matchBytes (packerMatch s).1 (packerMatch s).2
            blkFlag := markMatch s.blkFlag s.blkCount.toNat
            cursor := s.cursor + BitVec.ofNat 24 (packerMatch s).1
            blkCount := s.blkCount + 1 })) := by
  unfold emitToken at h
  split at h
  · rename_i hq
    obtain ⟨u, hu, ht⟩ := andThen_eq_next h
    injection ht with ht
    unfold selectToken at hu
    split at hu
    · obtain ⟨a, b, c⟩ := execTokLiteral_eq_next hu
      exact ⟨hq, b, .inl ⟨‹_›, by rw [← ht, c]; rfl⟩⟩
    · rename_i hl
      obtain ⟨a, b, c⟩ := execTokMatch_eq_next hu
      exact ⟨hq, b, .inr ⟨by omega, a, by rw [← ht, c]; rfl⟩⟩
  · cases h

/-- Everything a step of the running block can do: a token; a flush and a token; a failed flush; or the end of the
input, with the block empty, written, or not fitting. -/
theorem running_cases {s t : State} (hp : s.phase = .run) (h : sequencerStep s = .next t) :
    (s.cursor.toNat < s.len.toNat ∧ s.blkCount.toNat ≠ slots ∧ emitToken s = .next t) ∨
    (s.cursor.toNat < s.len.toNat ∧ s.blkCount.toNat = slots ∧ hasRoom (blockImage s) s = true ∧
      emitToken (clearBlock { s with out := s.out ++ blockImage s }) = .next t) ∨
    (s.cursor.toNat < s.len.toNat ∧ s.blkCount.toNat = slots ∧ hasRoom (blockImage s) s = false ∧
      t = failWith .allocFailure s) ∨
    (s.cursor.toNat = s.len.toNat ∧ s.blkCount = 0 ∧ t = succeed s) ∨
    (s.cursor.toNat = s.len.toNat ∧ s.blkCount ≠ 0 ∧ hasRoom (blockImage s) s = true ∧
      t = succeed (clearBlock { s with out := s.out ++ blockImage s })) ∨
    (s.cursor.toNat = s.len.toNat ∧ s.blkCount ≠ 0 ∧ hasRoom (blockImage s) s = false ∧
      t = failWith .allocFailure s) := by
  unfold sequencerStep at h
  rw [hp] at h
  simp only at h
  split at h
  · rename_i hc
    unfold tokenStep at h
    obtain ⟨u, hu, h⟩ := andThenRunning_eq_next h
    unfold flushIfFull at hu
    split at hu
    · rename_i h8
      obtain ⟨-, (⟨h0, -⟩ | ⟨h0, e⟩)⟩ := execBlkFlush_eq_next hu
      · rw [h0] at h8
        cases h8
      · rcases flush_cases s with ⟨r, e2⟩ | ⟨r, e2⟩
        · rw [e2] at e
          subst e
          rcases h with ⟨_, h⟩ | ⟨h, _⟩
          · exact .inr (.inl ⟨hc, h8, r, h⟩)
          · exact absurd hp h
        · rw [e2] at e
          subst e
          rcases h with ⟨h, _⟩ | ⟨_, h⟩
          · cases h
          · exact .inr (.inr (.inl ⟨hc, h8, r, h⟩))
    · injection hu with hu
      subst hu
      rcases h with ⟨_, h⟩ | ⟨h, _⟩
      · exact .inl ⟨hc, ‹_›, h⟩
      · exact absurd hp h
  · split at h
    · rename_i hc
      unfold finishStep at h
      obtain ⟨u, hu, h⟩ := andThenRunning_eq_next h
      obtain ⟨-, (⟨h0, e⟩ | ⟨h0, e⟩)⟩ := execBlkFlush_eq_next hu
      · rw [e] at h
        rcases h with ⟨_, h⟩ | ⟨h, _⟩
        · injection h with h
          exact .inr (.inr (.inr (.inl ⟨hc, h0, h.symm⟩)))
        · exact absurd hp h
      · rcases flush_cases s with ⟨r, e2⟩ | ⟨r, e2⟩
        · rw [e2] at e
          subst e
          rcases h with ⟨_, h⟩ | ⟨h, _⟩
          · injection h with h
            exact .inr (.inr (.inr (.inr (.inl ⟨hc, h0, r, h.symm⟩))))
          · exact absurd hp h
        · rw [e2] at e
          subst e
          rcases h with ⟨h, _⟩ | ⟨_, h⟩
          · cases h
          · exact .inr (.inr (.inr (.inr (.inr ⟨hc, h0, r, h⟩))))
    · cases h

/-! START -/

/-- What START does to an accepted ENCODE: too large, started, or no room for the header. -/
theorem startEncode_cases (input : Memory) (n : Nat) (s : State) :
    (maxInput < n ∧ startEncode input n s = failWith .inputTooLarge s) ∨
    (n ≤ maxInput ∧ fits s.cfg 4 = true ∧ startEncode input n s =
      { beginEncode input n s with out := headerBytes s.cfg (BitVec.ofNat 24 n).toNat }) ∨
    (n ≤ maxInput ∧ fits s.cfg 4 = false ∧
      startEncode input n s = failWith .allocFailure (beginEncode input n s)) := by
  unfold startEncode
  split
  · exact .inl ⟨‹_›, rfl⟩
  · rename_i h
    have h : n ≤ maxInput := by omega
    have e : hasRoom (headerBytes s.cfg (BitVec.ofNat 24 n).toNat) (beginEncode input n s) = fits s.cfg 4 := by
      simp [hasRoom, headerBytes]
    cases hf : fits s.cfg 4 with
    | true => exact .inr (.inl ⟨h, rfl, (outAppend_of_room (e.trans hf)).trans rfl⟩)
    | false => exact .inr (.inr ⟨h, rfl, outAppend_of_no_room (e.trans hf)⟩)

/-! The step -/

/-- Everything a step can do: the quiet block waits; the running block takes its step; or the host's next move
happens, an ENCODE, a FIND_MATCH, a reset or a new configuration. -/
theorem step_cases {s t : State} (h : step s = .next t) :
    (s.phase ≠ .run ∧ s.host = [] ∧ t = s) ∨
    (s.phase = .run ∧ s.hostSilent = true ∧ sequencerStep s = .next t) ∨
    (∃ w c rest, s.host = ⟨w, .command c⟩ :: rest ∧ s.phase ≠ .run ∧ c.code = 0x01 ∧ c.n = c.input.size ∧
      t = startEncode c.input c.n { s with host := rest }) ∨
    (∃ w c rest, s.host = ⟨w, .command c⟩ :: rest ∧ s.phase ≠ .run ∧ c.code = 0x02 ∧
      findMatchOperandsOk s.cfg c.hist c.look c.m = true ∧
      t = succeed { s with
        host := rest
        mfLen := BitVec.ofNat 17 (commandMatch c.hist c.look c.m).1
        mfDisp := BitVec.ofNat 13 (commandMatch c.hist c.look c.m).2 }) ∨
    (∃ w rest, s.host = ⟨w, .reset⟩ :: rest ∧ t = applyReset { s with host := rest }) ∨
    (∃ w cfg rest, s.host = ⟨w, .configure cfg⟩ :: rest ∧ s.phase ≠ .run ∧ cfg.Legal ∧
      t = { s with host := rest, cfg := cfg }) := by
  cases hh : s.host with
  | nil =>
    unfold step nextStep at h
    rw [hh] at h
    simp only at h
    by_cases hp : s.phase = .run
    · exact .inr (.inl ⟨hp, by simp [State.hostSilent, hh], h⟩)
    · refine .inl ⟨hp, rfl, ?_⟩
      unfold sequencerStep at h
      split at h
      · injection h with h
        exact h.symm
      · injection h with h
        exact h.symm
      · exact absurd ‹_› hp
  | cons mv rest =>
    by_cases hw : mv.wait = true → s.phase ≠ .run
    · rw [step_of_move hh hw] at h
      obtain ⟨w, e⟩ := mv
      cases e with
      | command c =>
        simp only [hostEvent, issue, decodeCommand] at h
        by_cases h1 : c.code = 0x01
        · simp only [h1, if_true] at h
          obtain ⟨a, b, d⟩ := execEncode_eq_next h
          exact .inr (.inr (.inl ⟨w, c, rest, rfl, a, h1, b, d⟩))
        · by_cases h2 : c.code = 0x02
          · simp only [h2] at h
            obtain ⟨a, b, d⟩ := execFindMatch_eq_next h
            exact .inr (.inr (.inr (.inl ⟨w, c, rest, rfl, a, h2, b, d⟩)))
          · rw [if_neg h1, if_neg h2] at h
            cases h
      | reset =>
        simp only [hostEvent] at h
        injection h with h
        exact .inr (.inr (.inr (.inr (.inl ⟨w, rest, rfl, h.symm⟩))))
      | configure cfg =>
        simp only [hostEvent, configure] at h
        split at h
        · cases h
        · split at h
          · injection h with h
            exact .inr (.inr (.inr (.inr (.inr ⟨w, cfg, rest, rfl, ‹_›, ‹_›, h.symm⟩))))
          · cases h
    · push Not at hw
      have hs : s.hostSilent = true := by simp [State.hostSilent, hh, hw.1]
      rw [step_of_silent hw.2 hs] at h
      exact .inr (.inl ⟨hw.2, hs, h⟩)

end Sys2Proof.Machine
end

