-- ==== Sys2Proof/Laws/Tokens.lean ====
section
/-!
SUPPORT. Flag bytes, blocks and the greedy parse, as the claims speak of them.
-/

namespace Sys2Proof

open Machine

/-! Flag bytes -/

theorem flagBits_lt (m : Nat) (ts : List Token) : flagBits (2 ^ m) ts < 2 ^ (m + 1) := by
  induction ts generalizing m with
  | nil => exact Nat.two_pow_pos _
  | cons t rest ih =>
    cases m with
    | zero =>
      have h0 : ∀ us : List Token, flagBits 0 us = 0 := by
        intro us
        induction us with
        | nil => rfl
        | cons u us ih => simp [flagBits, ih]
      simp only [flagBits, Nat.pow_zero]
      rw [h0]
      split <;> omega
    | succ m =>
      have h := ih m
      have e : 2 ^ (m + 1) / 2 = 2 ^ m := by rw [Nat.pow_succ]; omega
      simp only [flagBits, e]
      rw [Nat.pow_succ 2 (m + 1)]
      split <;> omega

theorem flagBits_append (w : Nat) (ts us : List Token) :
    flagBits w (ts ++ us) = flagBits w ts + flagBits (w / 2 ^ ts.length) us := by
  induction ts generalizing w with
  | nil => simp [flagBits]
  | cons t rest ih =>
    simp only [List.cons_append, flagBits, ih, List.length_cons]
    rw [Nat.div_div_eq_div_mul, Nat.pow_succ, Nat.mul_comm 2, Nat.add_assoc]

/-- Bit `m - i` of the flag bits is the flag bit of token `i`. -/
theorem flagBits_testBit (m : Nat) (ts : List Token) (i : Nat) (hi : i ≤ m) :
    (flagBits (2 ^ m) ts).testBit (m - i) = (ts[i]?.map Token.isMatch).getD false := by
  induction ts generalizing m i with
  | nil => simp [flagBits]
  | cons t rest ih =>
    cases m with
    | zero =>
      obtain rfl : i = 0 := by omega
      have h := flagBits_lt 0 (t :: rest)
      have h0 : ∀ us : List Token, flagBits 0 us = 0 := by
        intro us
        induction us with
        | nil => rfl
        | cons u us ih => simp [flagBits, ih]
      simp only [flagBits, Nat.pow_zero, Nat.sub_zero]
      rw [h0]
      cases t <;> simp [Token.isMatch]
    | succ m =>
      have e : 2 ^ (m + 1) / 2 = 2 ^ m := by rw [Nat.pow_succ]; omega
      have hl := flagBits_lt m rest
      simp only [flagBits, e]
      cases i with
      | zero =>
        simp only [Nat.sub_zero, List.getElem?_cons_zero, Option.map_some, Option.getD_some]
        split
        · rename_i ht
          rw [ht, Nat.testBit_two_pow_add_eq, Nat.testBit_lt_two_pow hl]; rfl
        · rename_i ht
          rw [Nat.zero_add, Nat.testBit_lt_two_pow hl]; simpa using ht
      | succ i =>
        rw [show m + 1 - (i + 1) = m - i by omega]
        simp only [List.getElem?_cons_succ]
        rw [← ih m i (by omega)]
        split
        · rw [Nat.testBit_two_pow_add_gt (by omega)]
        · rw [Nat.zero_add]

/-- The flag byte's bit `7 - i` is the flag bit of slot `i` (R72). -/
theorem blockFlag_getLsbD (ts : List Token) (i : Nat) (hi : i < 8) :
    (blockFlag ts).getLsbD (7 - i) = (ts[i]?.map Token.isMatch).getD false := by
  unfold blockFlag
  rw [BitVec.getLsbD_ofNat, show (0x80 : Nat) = 2 ^ 7 from rfl, flagBits_testBit 7 ts i (by omega)]
  simp [show 7 - i < 8 by omega]

theorem byte_ext {a b : Byte} (h : ∀ i < 8, a.getLsbD (7 - i) = b.getLsbD (7 - i)) : a = b := by
  apply BitVec.eq_of_getLsbD_eq
  intro k hk
  have := h (7 - k) (by omega)
  rwa [show 7 - (7 - k) = k by omega] at this

theorem blockFlag_literal (ts : List Token) (b : Byte) : blockFlag (ts ++ [.literal b]) = blockFlag ts := by
  apply byte_ext
  intro i hi
  rw [blockFlag_getLsbD _ _ hi, blockFlag_getLsbD _ _ hi]
  rcases Nat.lt_trichotomy i ts.length with h | h | h
  · rw [List.getElem?_append_left h]
  · rw [h]; simp [Token.isMatch]
  · rw [List.getElem?_eq_none (by simp; omega), List.getElem?_eq_none (by omega)]

theorem blockFlag_copy (ts : List Token) (l d : Nat) (h8 : ts.length < 8) :
    blockFlag (ts ++ [.copy l d]) = markMatch (blockFlag ts) ts.length := by
  apply byte_ext
  intro i hi
  rw [markMatch_getLsbD h8 (by omega), blockFlag_getLsbD _ _ hi, blockFlag_getLsbD _ _ hi]
  rcases Nat.lt_trichotomy i ts.length with h | h | h
  · rw [List.getElem?_append_left h]
    simp [show ¬ 7 - i = 7 - ts.length by omega]
  · rw [h]; simp [Token.isMatch]
  · rw [List.getElem?_eq_none (by simp; omega), List.getElem?_eq_none (by omega)]
    simp [show ¬ 7 - i = 7 - ts.length by omega]

/-! Blocks -/

theorem blocksUpTo_enough (ts : List Token) (f g : Nat) (hf : ts.length ≤ f) (hg : ts.length ≤ g) :
    blocksUpTo f ts = blocksUpTo g ts := by
  induction f generalizing ts g with
  | zero =>
    have : ts = [] := List.length_eq_zero_iff.1 (by omega)
    subst this
    cases g <;> simp [blocksUpTo]
  | succ f ih =>
    cases g with
    | zero =>
      have : ts = [] := List.length_eq_zero_iff.1 (by omega)
      subst this
      simp [blocksUpTo]
    | succ g =>
      simp only [blocksUpTo]
      split
      · rfl
      · rename_i hne
        have : 0 < ts.length := List.length_pos_iff.2 hne
        rw [ih (ts.drop slots) g (by simp [slots]; omega) (by simp [slots]; omega)]

theorem blocksOf_nil : blocksOf [] = [] := rfl

theorem blocksOf_cons (ts : List Token) (hne : ts ≠ []) :
    blocksOf ts = blockOf (ts.take slots) ++ blocksOf (ts.drop slots) := by
  have : 0 < ts.length := List.length_pos_iff.2 hne
  unfold blocksOf
  rw [blocksUpTo_enough ts ts.length (ts.length + 1) le_rfl (by omega)]
  simp only [blocksUpTo]
  rw [if_neg hne, blocksUpTo_enough (ts.drop slots) ts.length _ (by simp) le_rfl]

/-- Full blocks stand before what follows them. -/
theorem blocksOf_append (ts us : List Token) (h : ts.length % slots = 0) :
    blocksOf (ts ++ us) = blocksOf ts ++ blocksOf us := by
  induction hn : ts.length using Nat.strong_induction_on generalizing ts with
  | _ n ih =>
    by_cases h0 : ts = []
    · subst h0; simp [blocksOf_nil]
    · have hp : 0 < ts.length := List.length_pos_iff.2 h0
      unfold slots at *
      have h8 : 8 ≤ ts.length := by omega
      rw [blocksOf_cons (ts ++ us) (by simp [h0]), blocksOf_cons ts h0]
      unfold slots
      rw [List.take_append_of_le_length h8, List.drop_append_of_le_length h8,
        ih (ts.drop 8).length (by simp; omega) (ts.drop 8) (by simp; omega) rfl, List.append_assoc]

/-- A last block of 1 to 8 tokens. -/
theorem blocksOf_one (ts : List Token) (hne : ts ≠ []) (h : ts.length ≤ slots) : blocksOf ts = blockOf ts := by
  rw [blocksOf_cons ts hne, List.take_of_length_le h, List.drop_of_length_le h, blocksOf_nil, List.append_nil]

theorem tokenBytes_append (ts us : List Token) : tokenBytes (ts ++ us) = tokenBytes ts ++ tokenBytes us := by
  simp [tokenBytes]

/-- A token takes 1 to 4 bytes. -/
theorem token_bytes_length (t : Token) : 1 ≤ t.bytes.length ∧ t.bytes.length ≤ 4 := by
  cases t with
  | literal b => simp [Token.bytes]
  | copy l d =>
    simp only [Token.bytes, matchWordBytes]
    split
    · simp
    · split <;> simp

theorem tokenBytes_length_le (ts : List Token) : (tokenBytes ts).length ≤ 4 * ts.length := by
  induction ts with
  | nil => simp [tokenBytes]
  | cons t rest ih =>
    have := token_bytes_length t
    simp only [tokenBytes, List.flatMap_cons, List.length_append, List.length_cons] at ih ⊢
    omega

theorem consumedBy_append (ts us : List Token) : consumedBy (ts ++ us) = consumedBy ts + consumedBy us := by
  simp [consumedBy]

theorem blocksOf_length (ts : List Token) : (blocksOf ts).length = (ts.length + 7) / 8 + (tokenBytes ts).length := by
  induction hn : ts.length using Nat.strong_induction_on generalizing ts with
  | _ n ih =>
    by_cases h0 : ts = []
    · subst h0; simp at hn; subst hn; rfl
    · have hp : 0 < ts.length := List.length_pos_iff.2 h0
      rw [blocksOf_cons ts h0, List.length_append, ih (ts.drop slots).length (by simp [slots]; omega) (ts.drop slots) rfl]
      have e : (tokenBytes ts).length = (tokenBytes (ts.take slots)).length + (tokenBytes (ts.drop slots)).length := by
        rw [← List.length_append, ← tokenBytes_append, List.take_append_drop]
      rw [e]
      simp only [blockOf, List.length_cons, List.length_drop, slots]
      omega

/-! The greedy parse -/

theorem matchAt_bounds (cfg : Config) (input : Memory) (c : Nat) :
    (matchAt cfg input c).1 ≤ min (input.size - c) cfg.maxMatch ∧ (matchAt cfg input c).2 ≤ min c window ∧
      (1 ≤ (matchAt cfg input c).1 → 1 ≤ (matchAt cfg input c).2 ∧
        ∀ j < (matchAt cfg input c).1, input.read (c - (matchAt cfg input c).2 + j) = input.read (c + j)) := by
  obtain ⟨h1, h2, -, h4⟩ := findMatch_bounds (fun j => input.read (c - window + j)) (min c window)
    (min (input.size - c) cfg.maxMatch) 1 le_rfl
  refine ⟨h1, h2, fun hl => ⟨(h4 hl).1, fun j hj => ?_⟩⟩
  have e := (h4 hl).2 j hj
  change (matchAt cfg input c).2 ≤ min c window at h2
  change input.read (c - window + (min c window - (matchAt cfg input c).2 + j)) =
    input.read (c - window + (min c window + j)) at e
  unfold window at e h2
  rw [show c - 4096 + (min c 4096 - (matchAt cfg input c).2 + j) = c - (matchAt cfg input c).2 + j by omega,
    show c - 4096 + (min c 4096 + j) = c + j by omega] at e
  exact e

theorem tokenAt_valid (cfg : Config) (input : Memory) (c : Nat) (hc : c < input.size) :
    (tokenAt cfg input c).Valid cfg c input.size := by
  obtain ⟨h1, h2, h3⟩ := matchAt_bounds cfg input c
  unfold tokenAt
  unfold minMatch
  split
  · exact hc
  · unfold window at h2
    simp only [Token.Valid, minMatch, window]
    refine ⟨by omega, by omega, by omega, (h3 (by omega)).1, by omega, by omega⟩

theorem valid_consumed {cfg : Config} {c n : Nat} {t : Token} (h : t.Valid cfg c n) : 1 ≤ t.consumed ∧ c + t.consumed ≤ n := by
  cases t with
  | literal b => simp only [Token.Valid] at h; simp [Token.consumed]; omega
  | copy l d => simp only [Token.Valid, minMatch] at h; simp [Token.consumed]; omega

theorem parseUpTo_enough (cfg : Config) (input : Memory) (f g c : Nat) (hf : input.size - c ≤ f) (hg : input.size - c ≤ g) :
    parseUpTo cfg input f c = parseUpTo cfg input g c := by
  induction f generalizing g c with
  | zero =>
    cases g with
    | zero => rfl
    | succ g => simp [parseUpTo, show ¬ c < input.size by omega]
  | succ f ih =>
    cases g with
    | zero => simp [parseUpTo, show ¬ c < input.size by omega]
    | succ g =>
      simp only [parseUpTo]
      split
      · rename_i hc
        have := valid_consumed (tokenAt_valid cfg input c hc)
        rw [ih g _ (by omega) (by omega)]
      · rfl

theorem parseFrom_lt (cfg : Config) (input : Memory) (c : Nat) (hc : c < input.size) :
    parseFrom cfg input c = tokenAt cfg input c :: parseFrom cfg input (c + (tokenAt cfg input c).consumed) := by
  have := valid_consumed (tokenAt_valid cfg input c hc)
  unfold parseFrom
  rw [parseUpTo_enough cfg input (input.size - c) (input.size - c + 1) c le_rfl (by omega)]
  simp only [parseUpTo, if_pos hc]
  rw [parseUpTo_enough cfg input (input.size - c) _ _ (by omega) le_rfl]

theorem parseFrom_ge (cfg : Config) (input : Memory) (c : Nat) (hc : input.size ≤ c) : parseFrom cfg input c = [] := by
  unfold parseFrom
  rw [show input.size - c = 0 by omega]; rfl

theorem parseFrom_consumed (cfg : Config) (input : Memory) (c : Nat) (hc : c ≤ input.size) :
    consumedBy (parseFrom cfg input c) = input.size - c := by
  induction hn : input.size - c using Nat.strong_induction_on generalizing c with
  | _ n ih =>
    by_cases h : c < input.size
    · have := valid_consumed (tokenAt_valid cfg input c h)
      rw [parseFrom_lt cfg input c h]
      have e := ih _ (by omega) (c + (tokenAt cfg input c).consumed) (by omega) rfl
      simp only [consumedBy, List.map_cons, List.sum_cons] at e ⊢
      omega
    · rw [parseFrom_ge cfg input c (by omega)]
      simp [consumedBy]; omega

theorem parseFrom_split (cfg : Config) (input : Memory) (c : Nat) (hc : c ≤ input.size) (before after : List Token)
    (h : parseFrom cfg input c = before ++ after) : after = parseFrom cfg input (c + consumedBy before) ∧ c + consumedBy before ≤ input.size := by
  induction before generalizing c with
  | nil => simp [consumedBy]; exact ⟨h.symm, hc⟩
  | cons t rest ih =>
    by_cases hl : c < input.size
    · have := valid_consumed (tokenAt_valid cfg input c hl)
      rw [parseFrom_lt cfg input c hl] at h
      simp only [List.cons_append, List.cons.injEq] at h
      obtain ⟨rfl, h⟩ := h
      have := ih _ (by omega) h
      simp only [consumedBy, List.map_cons, List.sum_cons] at this ⊢
      rw [← Nat.add_assoc]
      exact this
    · rw [parseFrom_ge cfg input c (by omega)] at h
      cases h

/-! The packer's query -/

/-- On an operand of `len` bytes the packer's query is the finder's answer at the cursor (R126). -/
theorem packerMatch_eq {s : State} (h : s.len.toNat = s.input.size) :
    packerMatch s = matchAt s.cfg s.input s.cursor.toNat := by
  unfold packerMatch matchAt lookaheadLength
  rw [h]
  rfl

end Sys2Proof
end

