-- ==== Sys2Proof/Tests/Slice0.lean ====
section
/-!
SUPPORT. The model's own tests. Expected values are the vectors of spec/95_test_vectors.md (F, E, H, T, X and P rows),
the worked examples of the rules cited, or words written out from the format tables; and, for every statement with
hypotheses, a witness that they can be met.
-/

namespace Sys2Proof.Tests

open Machine

/-! Helpers. -/

/-- The next state of a step, if there is one. -/
def nextOf : Result → Option State
  | .next s => some s
  | .fault _ => none
  | .refused _ => none

/-- The fault of a step, if there is one. -/
def faultOf : Result → Option Fault
  | .next _ => none
  | .fault e => some e
  | .refused _ => none

/-- The refusal of a step, if there is one. -/
def refusalOf : Result → Option Refusal
  | .next _ => none
  | .fault _ => none
  | .refused e => some e

/-- The bytes of the ASCII text `"ABC…"` from letter `k` on. -/
def letters (k n : Nat) : List Byte := (List.range n).map fun j => BitVec.ofNat 8 (0x41 + k + j)

/-- `"A" * n`. -/
def as (n : Nat) : List Byte := List.replicate n 0x41

/-- The block in RUN on an input, at a cursor, with a block of tokens begun and the header written. -/
def running (input : List Byte) (cursor count : Nat) (flag : Byte) (bytes : List Byte) : State :=
  { State.reset with
    phase := .run, len := BitVec.ofNat 24 input.length, cursor := BitVec.ofNat 24 cursor,
    blkFlag := flag, blkCount := BitVec.ofNat 4 count, blkBytes := bytes,
    out := headerOf .default input.length, input := .ofBytes input }

/-- The block in DONE after some operation. -/
def doneState : State :=
  { State.reset with phase := .done, status := .success, out := [0x11, 0x00, 0x00, 0x00], mfLen := 3, mfDisp := 6 }

/-- The block right after reset with a move of the host to come. -/
def withMove (e : HostEvent) (s : State) : State := { s with host := [{ wait := false, event := e }] }

/-- The ENCODE command of a byte string. -/
def encodeOf (input : List Byte) : HostCommand :=
  { commandOf 0x01 with input := .ofBytes input, n := input.length }

/-- A FIND_MATCH command. -/
def findOf (hist look : List Byte) (m : Nat) : HostCommand :=
  { commandOf 0x02 with hist := .ofBytes hist, look := .ofBytes look, m := m }

/-! Well-formedness: one ill-formed term for each check. -/

theorem test_refuses_notCanonical : Instr.check .default (.encode ⟨1, [(0, 0x00)]⟩ 1) = some .notCanonical := by decide
theorem test_refuses_notCanonical_order :
    Instr.check .default (.findMatch ⟨2, [(1, 0x41), (0, 0x41)]⟩ .empty 1) = some .notCanonical := by decide
theorem test_refuses_lengthMismatch : Instr.check .default (.encode (.zeros 3) 4) = some .lengthMismatch := by decide
theorem test_refuses_historyTooLong :
    Instr.check .default (.findMatch (.zeros 4097) .empty 1) = some .historyTooLong := by decide
theorem test_refuses_lookaheadTooLong :
    Instr.check .default (.findMatch .empty (.zeros 65809) 1) = some .lookaheadTooLong := by decide
theorem test_refuses_minDisplacement :
    Instr.check .default (.findMatch .empty .empty 0) = some .minDisplacementOutOfRange ∧
      Instr.check .default (.findMatch .empty .empty 4097) = some .minDisplacementOutOfRange := by decide
theorem test_refuses_length :
    Instr.check .default (.encShort 17 1) = some .lengthOutOfRange ∧
      Instr.check .default (.encMedium 16 1) = some .lengthOutOfRange ∧
      Instr.check .default (.encLong 65809 1) = some .lengthOutOfRange ∧
      Instr.check { Config.default with maxMatch := 16 } (.tokMatch 17 1) = some .lengthOutOfRange := by decide
theorem test_refuses_displacement :
    Instr.check .default (.encShort 3 0) = some .displacementOutOfRange ∧
      Instr.check .default (.tokMatch 3 4097) = some .displacementOutOfRange := by decide
theorem test_accepts_boundaries :
    Instr.Wf .default (.encShort 16 4096) ∧ Instr.Wf .default (.encLong 65808 4096) ∧
      Instr.Wf .default (.findMatch (.zeros 4096) (.zeros 65808) 4096) := by decide

/-! Decoding: words written out bit by bit from the tables R71 to R76, R84. -/

theorem test_decode_encode (input : Memory) (n : Nat) (hist look : Memory) (m : Nat) :
    decode .default (.command ⟨0b00000001, input, n, hist, look, m⟩) = .ok (.encode input n, []) := rfl
theorem test_decode_findMatch (input : Memory) (n : Nat) (hist look : Memory) (m : Nat) :
    decode .default (.command ⟨0b00000010, input, n, hist, look, m⟩) = .ok (.findMatch hist look m, []) := rfl
theorem test_decode_unknown_code :
    decode .default (.command (commandOf 0b00000011)) = .error (.unknownCommandCode 0x03) := rfl
/-- H9: `N = 0x123456`; at shift 15 byte 3 is `N[22:15] = 0x24`, at 16 it is `N[23:16] = 0x12`. -/
theorem test_decode_hdr :
    decode .default (.header [0b00010001, 0b01010110, 0b00110100, 0b00100100]) = .ok (.hdr 0x123456, []) ∧
      decode { Config.default with hdrB3Shift := .s16 }
        (.header [0b00010001, 0b01010110, 0b00110100, 0b00010010]) = .ok (.hdr 0x123456, []) := ⟨rfl, rfl⟩
theorem test_decode_hdr_bad_tag : decode .default (.header [0x10, 0, 0, 0]) = .error (.badTag 0x10) := rfl
theorem test_decode_hdr_disagree :
    decode .default (.header [0x11, 0x00, 0x80, 0x00]) = .error .headerBitsDisagree := rfl
/-- P2: slot 3 of the block is a match. -/
theorem test_decode_blkFlush : decode .default (.flag [0b00010000, 0x41]) = .ok (.blkFlush 0x10, [0x41]) := rfl
theorem test_decode_tokLiteral : decode .default (.token false [0b01000001]) = .ok (.tokLiteral 0x41, []) := rfl
/-- E6: `MATCH 4, 15`. -/
theorem test_decode_tokMatch : decode .default (.token true [0b00110000, 0b00001110]) = .ok (.tokMatch 4 15, []) := rfl
/-- E3: `MATCH 5, 4096`. -/
theorem test_decode_encShort : decode .default (.tier [0b01001111, 0b11111111]) = .ok (.encShort 5 4096, []) := rfl
/-- E14: `MATCH 100, 291`. -/
theorem test_decode_encMedium :
    decode .default (.tier [0b00000101, 0b00110001, 0b00100010]) = .ok (.encMedium 100 291, []) := rfl
/-- E23: `MATCH 4999, 1`. -/
theorem test_decode_encLong :
    decode .default (.tier [0b00010001, 0b00100111, 0b01100000, 0b00000000]) = .ok (.encLong 4999 1, []) := rfl
theorem test_decode_truncated : decode .default (.tier [0x10, 0x00, 0x00]) = .error .truncated := rfl

/-- The encoder gives the bytes of E1, E9, E10, E16, E17 and E24. -/
theorem test_encode_tiers :
    encode .default (.encShort 3 1) = [0x20, 0x00] ∧ encode .default (.encShort 16 4096) = [0xFF, 0xFF] ∧
      encode .default (.encMedium 17 1) = [0x00, 0x00, 0x00] ∧
      encode .default (.encMedium 272 4096) = [0x0F, 0xFF, 0xFF] ∧
      encode .default (.encLong 273 1) = [0x10, 0x00, 0x00, 0x00] ∧
      encode .default (.encLong 65808 4096) = [0x1F, 0xFF, 0xFF, 0xFF] := by decide

/-! The opcode table's words. -/

theorem test_table_word_8 :
    decodeTableWord 8 0x01 = some (.encode .empty 0) ∧ decodeTableWord 8 0x02 = some (.findMatch .empty .empty 1) ∧
      decodeTableWord 8 0x00 = some (.tokLiteral 0x00) := by decide
theorem test_table_word_tiers :
    decodeTableWord 16 0x2000 = some (.encShort 3 1) ∧ decodeTableWord 24 0x000000 = some (.encMedium 17 1) ∧
      decodeTableWord 32 0x10000000 = some (.encLong 273 1) ∧ decodeTableWord 16 0x0000 = none := by decide
theorem test_table_word_hdr : decodeTableWord 32 0x11140000 = some (.hdr 20) := by decide

/-- Right after reset, each arranged step runs its instruction: the status, or the block's bytes, show it. -/
theorem test_fetch_encode : (nextOf (step (State.reset.withFetchWord 8 0x01))).map (·.out) =
    some [0x11, 0x00, 0x00, 0x00] := by decide
theorem test_fetch_findMatch : (nextOf (step (State.reset.withFetchWord 8 0x02))).map (·.status) =
    some .success := by decide
theorem test_fetch_hdr : (nextOf (step (State.reset.withFetchWord 32 0x11140000))).map (·.out) =
    some [0x11, 0x14, 0x00, 0x00] := by decide
theorem test_fetch_blkFlush :
    (nextOf (step (arrangeFor (.blkFlush 0x40) State.reset))).map (fun t => (t.out.take 2, t.phase)) =
      some ([0x40, 0x00], .done) := by decide
theorem test_fetch_tokLiteral : (nextOf (step (State.reset.withFetchWord 8 0x41))).map (·.blkBytes) =
    some [0x41] := by decide
theorem test_fetch_encShort : (nextOf (step (State.reset.withFetchWord 16 0x2000))).map (·.blkBytes) =
    some [0x20, 0x00] := by decide
theorem test_fetch_encMedium : (nextOf (step (State.reset.withFetchWord 24 0x000000))).map (·.blkBytes) =
    some [0x00, 0x00, 0x00] := by decide
set_option maxRecDepth 4000 in
theorem test_fetch_encLong : (nextOf (step (State.reset.withFetchWord 32 0x10000000))).map (·.blkBytes) =
    some [0x10, 0x00, 0x00, 0x00] := by decide

/-! One step of each instruction. -/

/-- F1 and F6: the farthest of equal runs; a length below 3 is returned. -/
theorem test_findMatch_tie :
    (nextOf (exec (.findMatch (.ofBytes (letters 0 3 ++ letters 0 3)) (.ofBytes (letters 0 3 ++ [0x58])) 1)
      State.reset)).map (fun t => (t.mfLen, t.mfDisp)) = some (3, 6) := by decide
/-- F8: `m = 2` shuts out the only match. -/
theorem test_findMatch_min :
    (nextOf (exec (.findMatch (.ofBytes [0x41, 0x41, 0x42]) (.ofBytes [0x42]) 2) State.reset)).map
      (fun t => (t.mfLen, t.mfDisp)) = some (0, 0) := by decide
/-- H2. -/
theorem test_hdr : (nextOf (exec (.hdr 20) State.reset)).map (·.out) = some [0x11, 0x14, 0x00, 0x00] := by decide
/-- H10: `N[23]` is in no byte at shift 15. -/
theorem test_hdr_bit23 : (nextOf (exec (.hdr 0x800000) State.reset)).map (·.out) =
    some [0x11, 0x00, 0x00, 0x00] := by decide
/-- T5, its flush. -/
theorem test_blkFlush :
    (nextOf (exec (.blkFlush 0x01) (running (letters 0 7 ++ letters 0 8 ++ letters 0 4) 14 8 0x01
      (letters 0 7 ++ [0x60, 0x06])))).map (fun t => (t.out, t.blkFlag, t.blkCount, t.blkBytes)) =
      some ([0x11, 0x13, 0x00, 0x00, 0x01] ++ letters 0 7 ++ [0x60, 0x06], 0x00, 0, []) := by decide
/-- X18: the flush of the first block needs 13 bytes. -/
theorem test_blkFlush_no_room :
    (nextOf (exec (.blkFlush 0x00) { running (letters 0 10) 8 8 0x00 (letters 0 8) with
      cfg := { Config.default with outCapacity := some 12 } })).map (fun t => (t.out, t.status, t.phase)) =
      some ([], .allocFailure, .done) := by decide
/-- T7: a literal, because the run of 2 is below the floor. -/
theorem test_tokLiteral :
    (nextOf (exec (.tokLiteral 0x41) (running [0x41, 0x42, 0x41, 0x42] 2 2 0x00 [0x41, 0x42]))).map
      (fun t => (t.cursor, t.blkBytes, t.blkFlag)) = some (3, [0x41, 0x42, 0x41], 0x00) := by decide
/-- T4: slot 7 sets 0x01. -/
theorem test_tokMatch :
    (nextOf (exec (.tokMatch 7 7) (running (letters 0 7 ++ letters 0 8 ++ letters 0 4) 7 7 0x00 (letters 0 7)))).map
      (fun t => (t.cursor, t.blkBytes, t.blkFlag)) = some (14, letters 0 7 ++ [0x60, 0x06], 0x01) := by decide
/-- E3. -/
theorem test_encShort : (nextOf (exec (.encShort 5 4096) State.reset)).map (·.blkBytes) = some [0x4F, 0xFF] := by
  decide
/-- E15. -/
theorem test_encMedium : (nextOf (exec (.encMedium 256 17) State.reset)).map (·.blkBytes) =
    some [0x0E, 0xF0, 0x10] := by decide
/-- E22. -/
theorem test_encLong : (nextOf (exec (.encLong 4368 2048) State.reset)).map (·.blkBytes) =
    some [0x10, 0xFF, 0xF7, 0xFF] := by decide
/-- P7, command 3: INPUT_TOO_LARGE leaves `len`, `cursor` and the result registers. -/
theorem test_encode_too_large :
    (nextOf (exec (.encode (.zeros 0x1000000) 0x1000000) { doneState with len := 8, cursor := 8 })).map
      (fun t => (t.out, t.status, t.len, t.cursor, t.mfLen, t.mfDisp)) =
      some ([], .inputTooLarge, 8, 8, 3, 6) := by decide
/-- X15: a capacity of 3 has no room for the header. -/
theorem test_encode_no_room :
    (nextOf (exec (.encode (.ofBytes (as 20)) 20) { State.reset with
      cfg := { Config.default with outCapacity := some 3 } })).map (fun t => (t.out, t.status, t.phase)) =
      some ([], .allocFailure, .done) := by decide

/-! One step of the sequencer and of the host port. -/

/-- T3: `MATCH 6, 3` in slot 3, overlapping its own lookahead. -/
theorem test_step_token :
    (nextOf (step (running (letters 0 3 ++ letters 0 3 ++ letters 0 3 ++ [0x58]) 3 3 0x00 (letters 0 3)))).map
      (fun t => (t.cursor, t.blkCount, t.blkFlag, t.blkBytes)) =
      some (9, 4, 0x10, letters 0 3 ++ [0x50, 0x02]) := by decide
/-- T5: a full block is flushed, then `LIT 'H'`. -/
theorem test_step_flush_token :
    (nextOf (step (running (letters 0 7 ++ letters 0 8 ++ letters 0 4) 14 8 0x01 (letters 0 7 ++ [0x60, 0x06])))).map
      (fun t => (t.cursor, t.blkCount, t.blkFlag, t.blkBytes, t.out.length)) =
      some (15, 1, 0x00, [0x48], 14) := by decide
/-- P1, FINISH. -/
theorem test_step_finish :
    (nextOf (step (running (as 20) 20 2 0x40 [0x41, 0x00, 0x20, 0x00]))).map (fun t => (t.out, t.status, t.phase)) =
      some ([0x11, 0x14, 0x00, 0x00, 0x40, 0x41, 0x00, 0x20, 0x00], .success, .done) := by decide
/-- A reset in RUN (R190, U17). -/
theorem test_step_reset :
    nextOf (step (withMove .reset (running (as 20) 1 1 0x00 [0x41]))) = some State.reset := by decide
/-- R180 (a), (b) and (c): each refused by name. -/
theorem test_step_refusals :
    refusalOf (step (withMove (.command (encodeOf [0x41])) (running (as 20) 1 1 0x00 [0x41]))) =
        some .commandWhileRunning ∧
      refusalOf (step (withMove (.command (commandOf 0x03)) doneState)) = some (.unknownCommandCode 0x03) ∧
      refusalOf (step (withMove (.command (findOf [0x41, 0x42] [0x41, 0x42] 0)) doneState)) =
        some .findMatchOperands ∧
      refusalOf (step (withMove (.command { encodeOf [0x41] with n := 2 }) doneState)) =
        some .encodeLengthMismatch := by decide

/-- P1: the response of the whole ENCODE as a function. -/
theorem test_encodeResponse_P1 :
    encodeResponse .default (.ofBytes (as 20)) =
      .success [0x11, 0x14, 0x00, 0x00, 0x40, 0x41, 0x00, 0x20, 0x00] 9 := by decide

/-! Witnesses: for each statement with hypotheses, states and operands that meet them together, clause by clause. -/

/-- "ABABAB" after its START step. -/
def startedState : State := running [0x41, 0x42, 0x41, 0x42, 0x41, 0x42] 0 0 0x00 []

/-- "ABABAB" after the literal 'A'. -/
def oneTokenState : State := running [0x41, 0x42, 0x41, 0x42, 0x41, 0x42] 1 1 0x00 [0x41]

/-- "ABABAB" before the match of length 4 at displacement 2. -/
def matchState : State := running [0x41, 0x42, 0x41, 0x42, 0x41, 0x42] 2 2 0x00 [0x41, 0x42]

/-- A full block, with one byte of input left. -/
def fullBlockState : State := running (letters 0 9) 8 8 0x00 (letters 0 8)

/-- The end of the input, with a block of two tokens. -/
def endState : State := running [0x41, 0x42] 2 2 0x00 [0x41, 0x42]

theorem witness_started_runs : startedState.RunsWith [] [] :=
  ⟨by decide, by decide, by decide, by decide, by decide, by decide, by decide, by decide, by decide, by decide,
    by decide⟩

theorem witness_oneToken_runs : oneTokenState.RunsWith [] [.literal 0x41] :=
  ⟨by decide, by decide, by decide, by decide, by decide, by decide, by decide, by decide, by decide, by decide,
    by decide⟩

/-- A running state that meets the invariant, with a block begun. -/
theorem witness_oneToken_inv : oneTokenState.Inv :=
  ⟨by decide, by decide, fun _ h => (by cases h), fun h => (by cases h), fun h => (by cases h), fun h => (by cases h),
    fun _ => ⟨_, _, witness_oneToken_runs⟩⟩

theorem witness_done_inv : doneState.Inv :=
  ⟨by decide, by decide, fun _ h => (by cases h), fun h => (by cases h), fun _ h => (by cases h), fun _ h => absurd rfl h,
    fun h => (by cases h)⟩

theorem witness_decodeOfEncode :
    Config.Legal .default ∧ Instr.Wf .default (.hdr 0x7FFFFF) ∧
      (∀ n, Instr.hdr 0x7FFFFF = .hdr n → Config.default.hdrB3Shift = .s15 → n.toNat < 0x800000) ∧
      Config.Legal { Config.default with hdrB3Shift := .s16 } ∧ Instr.Wf .default (.tokMatch 65808 4096) :=
  ⟨by decide, by decide, fun n h _ => by injection h with h; subst h; decide, by decide, by decide⟩

/-- Each of the five places, at a boundary value. -/
theorem witness_encodeOfDecode :
    Config.default.maxMatch = maxMatchLimit ∧
      decode .default (.header [0x11, 0xFF, 0xFF, 0xFF]) = .ok (.hdr 0x7FFFFF, []) ∧
      decode .default (.flag [0xFF, 0x00]) = .ok (.blkFlush 0xFF, [0x00]) ∧
      decode .default (.token false [0xFF]) = .ok (.tokLiteral 0xFF, []) ∧
      decode .default (.token true [0x1F, 0xFF, 0xFF, 0xFF]) = .ok (.tokMatch 65808 4096, []) ∧
      decode .default (.tier [0x0F, 0xFF, 0xFF]) = .ok (.encMedium 272 4096, []) := ⟨rfl, rfl, rfl, rfl, rfl, rfl⟩

theorem witness_firstNibble :
    ∀ l ∈ [3, 16, 17, 272, 273, 0x10110], ∀ d ∈ [1, 4096], 3 ≤ l ∧ l ≤ 0x10110 ∧ 1 ≤ d ∧ d ≤ 4096 := by decide

/-- The three tiers at both ends, for the serializers' statements and their frame. -/
theorem witness_serializers :
    (∀ l ∈ [3, 16], 3 ≤ l ∧ l ≤ 16) ∧ (∀ l ∈ [17, 272], 17 ≤ l ∧ l ≤ 272) ∧
      (∀ l ∈ [273, 0x10110], 273 ≤ l ∧ l ≤ 0x10110) ∧ (∀ d ∈ [1, 4096], 1 ≤ d ∧ d ≤ 4096) ∧
      (running (as 40) 30 8 0xFF (as 28)).blkBytes.length ≤ 28 := by decide

theorem witness_header_shift :
    Config.default.hdrB3Shift = .s15 ∧ { Config.default with hdrB3Shift := .s16 }.hdrB3Shift = .s16 := by decide

theorem witness_blkFlush :
    fullBlockState.blkCount ≠ 0 ∧ startedState.blkCount = 0 ∧ (0x01 : Byte) ≠ startedState.blkFlag := by decide

theorem witness_tokLiteral :
    (startedState.input.read? startedState.cursor.toNat = some 0x41 ∧ startedState.blkCount.toNat < 8 ∧
        startedState.blkBytes.length < 32) ∧
      endState.input.size ≤ endState.cursor.toNat ∧
      (oneTokenState.cursor.toNat < oneTokenState.input.size ∧
        oneTokenState.input.read oneTokenState.cursor.toNat ≠ 0x41) ∧
      (fullBlockState.input.read? fullBlockState.cursor.toNat = some 0x49 ∧ 8 ≤ fullBlockState.blkCount.toNat) ∧
      ((running (as 40) 39 7 0x00 (as 32)).input.read? 39 = some 0x41 ∧
        (running (as 40) 39 7 0x00 (as 32)).blkCount.toNat < 8 ∧
        32 ≤ (running (as 40) 39 7 0x00 (as 32)).blkBytes.length) := by decide

theorem witness_tokMatch :
    matchState.cfg.Legal ∧ 3 ≤ 4 ∧ 4 ≤ matchState.cfg.maxMatch ∧ matchState.cursor.toNat + 4 ≤ matchState.len.toNat ∧
      1 ≤ 2 ∧ 2 ≤ matchState.cursor.toNat ∧ 2 ≤ 4096 ∧ matchState.blkCount.toNat < 8 ∧
      matchState.blkBytes.length ≤ 28 := by decide

theorem witness_matchOutOfRange :
    ((2 < 3 ∨ 16 < 2 ∨ 1 < 1 ∨ 4096 < 1) ∧ (16 < 17 ∨ 272 < 16 ∨ 1 < 1 ∨ 4096 < 1) ∧
      (273 < 273 ∨ 0x10110 < 273 ∨ 4097 < 1 ∨ 4096 < 4097)) ∧
      (5 < 3 ∨ matchState.cfg.maxMatch < 5 ∨ 0x10110 < 5 ∨ matchState.len.toNat < matchState.cursor.toNat + 5 ∨
        2 < 1 ∨ matchState.cursor.toNat < 2 ∨ 4096 < 2) := by decide

/-- Operands of a FIND_MATCH at the upper ends of their ranges. -/
theorem witness_findMatch :
    doneState.phase ≠ .run ∧ doneState.cfg.Legal ∧ (Memory.zeros 4096).size ≤ 4096 ∧
      (Memory.zeros 65808).size ≤ doneState.cfg.maxMatch ∧ 1 ≤ 4096 ∧ 4096 ≤ 4096 := by decide

theorem witness_findMatch_next :
    ∃ t, exec (.findMatch (.ofBytes (as 4)) (.ofBytes (as 2)) 1) doneState = .next t ∧ t.mfDisp = 4 :=
  ⟨_, rfl, by decide⟩

theorem witness_closedForm : 1 ≤ mfMinDisp := by decide

/-- The views of `matchState`: history "AB", lookahead "ABAB". -/
theorem witness_packerQuery :
    matchState.cfg.Legal ∧ matchState.cursor.toNat ≤ matchState.len.toNat ∧
      matchState.len.toNat ≤ matchState.input.size ∧
      (Memory.ofBytes [0x41, 0x42]).size = min matchState.cursor.toNat 4096 ∧
      (Memory.ofBytes [0x41, 0x42, 0x41, 0x42]).size =
        min (matchState.len.toNat - matchState.cursor.toNat) matchState.cfg.maxMatch ∧
      (∀ j < 2, (Memory.ofBytes [0x41, 0x42]).read? j =
        matchState.input.read? (matchState.cursor.toNat - 4096 + j)) ∧
      (∀ j < 4, (Memory.ofBytes [0x41, 0x42, 0x41, 0x42]).read? j =
        matchState.input.read? (matchState.cursor.toNat + j)) ∧
      doneState.phase ≠ .run ∧ doneState.cfg = matchState.cfg := by decide

theorem witness_emptyLookahead :
    startedState.cfg.Legal ∧ startedState.cursor.toNat < startedState.len.toNat := by decide

/-- START at both sides of the size bound, with room for the header and without. -/
theorem witness_encodeStarts :
    doneState.phase ≠ .run ∧ 0xFFFFFF < (Memory.zeros 0x1000000).size ∧ (Memory.zeros 0xFFFFFF).size ≤ 0xFFFFFF ∧
      fits { Config.default with outCapacity := some 4 } 4 = true ∧
      fits { Config.default with outCapacity := some 3 } 4 = false := by decide

theorem witness_block_frame :
    (∃ t, exec (.encShort 3 1) matchState = .next t) ∧ (∃ t, exec (.encMedium 17 1) matchState = .next t) ∧
      (∃ t, exec (.encLong 273 1) matchState = .next t) ∧ (∃ t, exec (.tokLiteral 0x41) matchState = .next t) ∧
      (∃ t, exec (.tokMatch 4 2) matchState = .next t) :=
  ⟨⟨_, rfl⟩, ⟨_, rfl⟩, ⟨_, rfl⟩, ⟨_, rfl⟩, ⟨_, rfl⟩⟩

theorem witness_output_frame :
    (∃ t, exec (.hdr 20) State.reset = .next t ∧ [0x11, 0x14, 0x00, 0x00] = headerBytes State.reset.cfg 20) ∧
      (∃ t, exec (.blkFlush 0x00) fullBlockState = .next t ∧ fullBlockState.blkCount ≠ 0) :=
  ⟨⟨_, rfl, by decide⟩, ⟨_, rfl, by decide⟩⟩

theorem witness_command_frame :
    (∃ t, exec (.findMatch .empty .empty 1) doneState = .next t) ∧ (∃ t, exec (.encode .empty 0) doneState = .next t) :=
  ⟨⟨_, rfl⟩, ⟨_, rfl⟩⟩

theorem witness_stepRuns :
    (withMove (.command (encodeOf [0x41])) doneState).host = ⟨false, .command (encodeOf [0x41])⟩ :: [] ∧
      doneState.phase ≠ .run ∧
      decode doneState.cfg (.command (encodeOf [0x41])) = .ok (.encode (.ofBytes [0x41]) 1, []) :=
  ⟨rfl, by decide, rfl⟩

/-- A literal, a match, and a full block. -/
theorem witness_tokenStep :
    (∀ s ∈ [startedState, matchState, fullBlockState], s.phase = .run ∧ s.hostSilent = true ∧
        s.cursor.toNat < s.len.toNat ∧ s.len.toNat ≤ s.input.size) ∧
      (startedState.blkCount.toNat < 8 ∧ (packerMatch startedState).1 < 3 ∧
        startedState.input.read? startedState.cursor.toNat = some 0x41) ∧
      (matchState.blkCount.toNat < 8 ∧ 3 ≤ (packerMatch matchState).1) ∧ fullBlockState.blkCount.toNat = 8 := by decide

theorem witness_tokenStep_flush : ∃ u, exec (.blkFlush fullBlockState.blkFlag) fullBlockState = .next u := ⟨_, rfl⟩

theorem witness_startRunsHdr :
    doneState.phase ≠ .run ∧ (Memory.zeros 0).size ≤ 0xFFFFFF ∧ (Memory.zeros 0xFFFFFF).size ≤ 0xFFFFFF := by decide

/-- Matches where the tiers meet, where the operands are in range. -/
theorem witness_tokMatchRuns :
    matchState.cfg.Legal ∧ ∀ l ∈ [16, 17, 272, 273], 3 ≤ l ∧ l ≤ matchState.cfg.maxMatch ∧
      ({ matchState with len := 300 } : State).cursor.toNat + l ≤ ({ matchState with len := 300 } : State).len.toNat ∧
      1 ≤ 2 ∧ 2 ≤ matchState.cursor.toNat ∧ matchState.blkCount.toNat < 8 := by decide

theorem witness_finish :
    (endState.phase = .run ∧ endState.hostSilent = true ∧ endState.cursor = endState.len ∧ endState.blkCount ≠ 0) ∧
      (running [] 0 0 0x00 []).cursor = (running [] 0 0 0x00 []).len ∧
      (running [] 0 0 0x00 []).blkCount = 0 := by decide

theorem witness_quiet : doneState.host = [] ∧ doneState.phase ≠ .run := by decide

theorem witness_reset : (withMove .reset oneTokenState).host = ⟨false, .reset⟩ :: [] := rfl

/-- A command that is accepted, and one for each case of R180. -/
theorem witness_acceptance :
    (doneState.phase ≠ .run ∧ (findOf [0x41] [0x41] 1).code = 0x02) ∧ oneTokenState.phase = .run ∧
      ((commandOf 0x00).code ≠ 0x01 ∧ (commandOf 0x00).code ≠ 0x02) ∧
      ¬(findOf [] [] 4097).m ≤ 4096 ∧ { encodeOf [0x41] with n := 2 }.n ≠ (encodeOf [0x41]).input.size := by decide

/-- The configuration move in its three cases. -/
theorem witness_configure :
    doneState.phase ≠ .run ∧ Config.Legal { Config.default with maxMatch := 3 } ∧ oneTokenState.phase = .run ∧
      ¬Config.Legal { Config.default with maxMatch := 65809 } := by decide

/-- The port's statements: each has a state whose host list begins as it says. -/
theorem witness_port :
    (withMove (.command (encodeOf [0x41])) doneState).host = [⟨false, .command (encodeOf [0x41])⟩] ∧
      (withMove (.configure .default) doneState).host = [⟨false, .configure .default⟩] := ⟨rfl, rfl⟩

theorem witness_hostReads : oneTokenState.phase ≠ .done := by decide

/-- A step that changes the configuration, one that writes `status`, and one that writes `mf_len`. -/
theorem witness_writes :
    (nextOf (step (withMove (.configure { Config.default with maxMatch := 3 }) doneState))).map (·.cfg.maxMatch) =
        some 3 ∧
      (nextOf (step (running [] 0 0 0x00 []))).map (·.status) = some .success ∧
      (nextOf (step (withMove (.command (findOf [0x41] [0x41] 1)) doneState))).map (·.mfLen) = some 1 := by decide

/-- Steps of the running block: with the host silent, a block within the buffer, and a next state in RUN. -/
theorem witness_running :
    oneTokenState.phase = .run ∧ oneTokenState.hostSilent = true ∧ oneTokenState.blkBytes.length ≤ 32 ∧
      oneTokenState.cursor.toNat < oneTokenState.len.toNat ∧
      (nextOf (step oneTokenState)).map (·.phase) = some .run := by decide

theorem witness_running_next : ∃ t, step oneTokenState = .next t := ⟨_, rfl⟩

/-- The hypotheses of the TOKEN step's progress, all in one state. -/
theorem witness_tokenStepMoves :
    oneTokenState.Inv ∧ oneTokenState.phase = .run ∧ oneTokenState.hostSilent = true ∧
      oneTokenState.cursor.toNat < oneTokenState.len.toNat ∧ ∃ t, step oneTokenState = .next t ∧ t.phase = .run :=
  ⟨witness_oneToken_inv, by decide, by decide, by decide, _, rfl, by decide⟩

theorem witness_stepKeeps : doneState.Inv ∧ ∃ t, step doneState = .next t := ⟨witness_done_inv, _, rfl⟩

/-- An ENCODE to issue, with a later move that waits. -/
theorem witness_encodeRuns :
    ({ doneState with host := [⟨true, .command (encodeOf [0x41])⟩, ⟨true, .reset⟩] } : State).host =
        ⟨true, .command (encodeOf [0x41])⟩ :: [⟨true, .reset⟩] ∧
      (∀ mv ∈ [(⟨true, .reset⟩ : HostMove)], mv.wait = true) ∧ doneState.phase ≠ .run ∧ doneState.cfg.Legal ∧
      (encodeOf [0x41]).code = 0x01 ∧ (encodeOf [0x41]).n = (encodeOf [0x41]).input.size := by decide

/-- Two blocks that differ in every register, with the same ENCODE to come; each takes one step. -/
theorem witness_independent :
    doneState.phase ≠ .run ∧ State.reset.phase ≠ .run ∧ doneState.cfg = State.reset.cfg ∧
      (∃ t, Host.Core.run core 1 (withMove (.command (encodeOf [0x41])) doneState) = .next t) ∧
      (∃ t, Host.Core.run core 1 (withMove (.command (encodeOf [0x41])) State.reset) = .next t) :=
  ⟨by decide, by decide, rfl, ⟨_, rfl⟩, ⟨_, rfl⟩⟩

theorem witness_legal_configs :
    Config.Legal .default ∧ Config.Legal ⟨3, .s16, some 0⟩ ∧ Config.Legal ⟨0x10110, .s15, none⟩ := by decide

/-- A parse with a token before and a token after another. -/
theorem witness_parse :
    parse .default (.ofBytes [0x41, 0x42, 0x41, 0x42, 0x41, 0x42]) =
      [.literal 0x41] ++ .literal 0x42 :: [.copy 4 2] := by decide

theorem witness_capacity :
    (Memory.ofBytes (as 20)).size ≤ 0xFFFFFF ∧
      fits { Config.default with outCapacity := some 27 } (4 + (Memory.ofBytes (as 20)).size +
        ((Memory.ofBytes (as 20)).size + 7) / 8) = true := by decide

end Sys2Proof.Tests
end

section
/-! The values of the state record after reset (spec/10_state.md R35). -/
namespace Sys2Proof

open Machine

/-- Settles O29: `State.reset` writes R35's table out, so each conjunct is one row of it read off the record; the
code of NONE is then the row of R170's table. -/
theorem resetValuesAreTheTables : Obligations.ResetValuesAreTheTables := by
  unfold Obligations.ResetValuesAreTheTables
  exact ⟨rfl, rfl, rfl, rfl, rfl, rfl, rfl, rfl, rfl, rfl, rfl⟩

end Sys2Proof
end

section
/-! The empty lookahead, and why the packer never queries with one (spec/40_match_finder.md R101). -/
namespace Sys2Proof.Machine

/-- With no byte to match, the finder answers no match before it looks at any candidate (R101). -/
@[simp] theorem findMatch_emptyLookahead (w : Nat → Byte) (h m : Nat) : findMatch w h 0 m = (0, 0) :=
  if_pos rfl

/-- The lookahead has a byte exactly when input is left and the cap admits one (R32). -/
theorem lookaheadLength_pos_iff {s : State} :
    1 ≤ lookaheadLength s ↔ s.cursor.toNat < s.len.toNat ∧ 1 ≤ s.cfg.maxMatch := by
  unfold lookaheadLength
  rw [Nat.le_min, Nat.one_le_iff_ne_zero, Nat.sub_ne_zero_iff_lt]

end Sys2Proof.Machine

namespace Sys2Proof

open Machine

/-- A legal lookahead cap is not zero (R6). -/
theorem Config.Legal.one_le_maxMatch {c : Config} (h : c.Legal) : 1 ≤ c.maxMatch :=
  (by decide : 1 ≤ minMatch).trans h.1

/-- Settles O17: the finder's guard answers the empty lookahead; in the packer the loop's condition leaves an input
byte and a legal cap admits it. -/
theorem emptyLookaheadGivesNoMatch : Obligations.EmptyLookaheadGivesNoMatch := by
  unfold Obligations.EmptyLookaheadGivesNoMatch
  exact ⟨findMatch_emptyLookahead,
    fun _ hlegal hcursor => lookaheadLength_pos_iff.2 ⟨hcursor, hlegal.one_le_maxMatch⟩⟩

end Sys2Proof
end

section
/-! The words of a match and the bytes the packer writes for it (spec/30_encoding.md R74 to R77, R83). -/
namespace Sys2Proof

open Machine

theorem beBytes_wordShort {l d : Nat} (hd : d ≤ 4096) : beBytes 2 (wordShort l d) = shortBytes l d := by
  rw [beBytes_two, shortBytes_eq hd, wordShort, List.cons_eq_cons, List.cons_eq_cons]
  exact ⟨byte_congr (by omega), byte_congr (by omega), rfl⟩

theorem beBytes_wordMedium {l d : Nat} (hl : l ≤ 272) (hd : d ≤ 4096) :
    beBytes 3 (wordMedium l d) = mediumBytes l d := by
  rw [beBytes_three, mediumBytes_eq hl hd, wordMedium, List.cons_eq_cons, List.cons_eq_cons, List.cons_eq_cons]
  exact ⟨byte_congr (by omega), byte_congr (by omega), byte_congr (by omega), rfl⟩

theorem beBytes_wordLong {l d : Nat} (hl : l ≤ 0x10110) (hd : d ≤ 4096) :
    beBytes 4 (wordLong l d) = longBytes l d := by
  rw [beBytes_four, longBytes_eq hl hd, wordLong, List.cons_eq_cons, List.cons_eq_cons, List.cons_eq_cons,
    List.cons_eq_cons]
  exact ⟨byte_congr (by omega), byte_congr (by omega), byte_congr (by omega), byte_congr (by omega), rfl⟩

/-- The packer's bytes of a match are its word: both sides choose the tier by `L` alone (R77). -/
theorem matchWordBytes_eq_matchBytes {l d : Nat} (hl : l ≤ 0x10110) (hd : d ≤ 4096) :
    matchWordBytes l d = matchBytes l d := by
  unfold matchWordBytes matchBytes
  split
  · exact beBytes_wordShort hd
  · split
    · exact beBytes_wordMedium ‹_› hd
    · exact beBytes_wordLong hl hd

end Sys2Proof
end

section
/-! TOK_MATCH (spec/41_token_packer.md R129). -/
namespace Sys2Proof.Machine

/-- Every tier takes at most 4 bytes (R77). -/
theorem matchBytes_length_le (l d : Nat) : (matchBytes l d).length ≤ 4 := by
  rw [matchBytes_length]
  split
  · decide
  · split <;> decide

/-- `blk_flag | (0x80 >> slot)`, with the bit as its weight. -/
theorem markMatch_eq {flag : Byte} {slot : Nat} (hs : slot < 8) :
    markMatch flag slot = flag ||| BitVec.ofNat 8 (2 ^ (7 - slot)) := by
  rw [markMatch, slotBit_eq hs]

/-- A match with its operands in range, a free slot and room in the block buffer goes on. -/
theorem execTokMatch_of_ok {l d : Nat} {s : State} (hok : tokMatchOperandsOk s l d = true)
    (hslot : s.blkCount.toNat < slots) (hroom : s.blkBytes.length + (matchBytes l d).length ≤ blockBufferSize) :
    execTokMatch l d s = .next { s with
      blkBytes := s.blkBytes ++ matchBytes l d
      blkFlag := markMatch s.blkFlag s.blkCount.toNat
      cursor := s.cursor + BitVec.ofNat 24 l } := by
  rw [execTokMatch, if_pos hok, if_pos hslot, blkAppend_of_room hroom, andThen_next]

end Sys2Proof.Machine

namespace Sys2Proof

open Machine

/-- Settles O10: a legal cap keeps `L` in a tier, so the operands are in range; 28 bytes leave room for the longest
tier, and the serializer's bytes are the word's. -/
theorem tokMatchEmitsTheMatch : Obligations.TokMatchEmitsTheMatch := by
  unfold Obligations.TokMatchEmitsTheMatch
  intro l d s hlegal hl3 hlMax hlLen hd1 hdCursor hdWindow hslot hbytes
  have hlTier : l ≤ 0x10110 := hlMax.trans hlegal.2
  have hroom : s.blkBytes.length + (matchBytes l d).length ≤ blockBufferSize :=
    Nat.add_le_add hbytes (matchBytes_length_le l d)
  have hcursor : BitVec.ofNat 24 (s.cursor.toNat + l) = s.cursor + BitVec.ofNat 24 l := by
    rw [BitVec.ofNat_add, BitVec.ofNat_toNat, BitVec.setWidth_eq]
  calc exec (.tokMatch l d) s
      _ = execTokMatch l d s := rfl
      _ = _ := execTokMatch_of_ok
        (tokMatchOperandsOk_iff.2 ⟨hl3, hlMax, hlTier, hlLen, hd1, hdCursor, hdWindow⟩) hslot hroom
      _ = _ := by rw [encode, matchWordBytes_eq_matchBytes hlTier hdWindow, markMatch_eq hslot, hcursor]

end Sys2Proof
end

section
/-! The TOKEN step as its micro-operations (spec/41_token_packer.md R121, R125 to R133). -/
namespace Sys2Proof.Machine

theorem selectToken_of_short {s : State} {b : Byte} (hl : (packerMatch s).1 < minMatch)
    (hb : s.input.read? s.cursor.toNat = some b) : selectToken s = .tokLiteral b := by
  rw [selectToken, if_pos hl, (Memory.read?_eq_some.1 hb).2]

theorem selectToken_of_long {s : State} (hl : minMatch ≤ (packerMatch s).1) :
    selectToken s = .tokMatch (packerMatch s).1 (packerMatch s).2 :=
  if_neg (Nat.not_lt.2 hl)

/-- What enables a TOKEN step that is the block's own (R121, R199). -/
structure TokenEnabled (s : State) : Prop where
  running : s.phase = .run
  silent : s.hostSilent = true
  below : s.cursor.toNat < s.len.toNat

/-- With a free slot the TOKEN step is the token alone. -/
theorem TokenEnabled.step_of_free {s : State} (h : TokenEnabled s) (hfree : s.blkCount.toNat ≠ slots) :
    step s = emitToken s := by
  rw [step_of_silent h.running h.silent, sequencerStep_token h.running h.below, tokenStep_of_free h.running hfree]

/-- Inside the input a free slot gets the selected token's micro-operation, and the slot counter advances. -/
theorem TokenEnabled.step_eq_exec_selectToken {s : State} (h : TokenEnabled s) (hin : s.len.toNat ≤ s.input.size)
    (hfree : s.blkCount.toNat < slots) :
    step s = andThen (exec (selectToken s) s) fun t => .next { t with blkCount := t.blkCount + 1 } := by
  rw [h.step_of_free hfree.ne, emitToken, if_pos (queryInRange_of_le h.below hin)]
  rfl

/-- A flush that leaves the operation in progress leaves a TOKEN step enabled, with every slot free. -/
theorem TokenEnabled.of_flush {s : State} (h : TokenEnabled s) (hrun : (flush s).phase = .run) :
    TokenEnabled (flush s) ∧ (flush s).blkCount = 0 := by
  obtain ⟨-, hflush⟩ | ⟨-, hflush⟩ := flush_cases s
  · rw [hflush]
    exact ⟨⟨h.running, h.silent, h.below⟩, rfl⟩
  · rw [hflush] at hrun
    cases hrun

/-- With a full block the TOKEN step flushes, and goes on as the step of the state that left unless that append ended
the operation (R125, R172). -/
theorem TokenEnabled.step_of_full {s : State} (h : TokenEnabled s) (hfull : s.blkCount.toNat = slots) {u : State}
    (hu : exec (.blkFlush s.blkFlag) s = .next u) : step s = if u.phase = .run then step u else .next u := by
  have hstep : step s = if u.phase = .run then emitToken u else .next u := by
    rw [step_of_silent h.running h.silent, sequencerStep_token h.running h.below, tokenStep, flushIfFull,
      if_pos hfull, hu, andThenRunning, andThen_next]
  rw [hstep]
  split
  case isFalse => rfl
  case isTrue hrun =>
    have hne : s.blkCount ≠ 0 := by
      intro h0
      rw [h0] at hfull
      exact absurd hfull (by decide)
    obtain rfl : flush s = u := by
      rw [execBlkFlush_of_nonempty hne] at hu
      injection hu
    obtain ⟨henabled, hempty⟩ := h.of_flush hrun
    exact (henabled.step_of_free (by rw [hempty]; decide)).symm

end Sys2Proof.Machine

namespace Sys2Proof

open Machine

/-- Settles O23: a free slot gets the instruction the finder's `L` selects; a full block is flushed, which frees every
slot, so the rest of the step is the step of the state that left. -/
theorem tokenStepRunsItsMicroOperations : Obligations.TokenStepRunsItsMicroOperations := by
  unfold Obligations.TokenStepRunsItsMicroOperations
  intro s hrun hsilent hbelow hin
  have henabled : TokenEnabled s := ⟨hrun, hsilent, hbelow⟩
  refine ⟨fun hfree hshort b hb => ?_, fun hfree hlong => ?_, fun hfull u hu => henabled.step_of_full hfull hu⟩
  · rw [henabled.step_eq_exec_selectToken hin hfree, selectToken_of_short hshort hb]
  · rw [henabled.step_eq_exec_selectToken hin hfree, selectToken_of_long hlong]

end Sys2Proof
end

section
/-! The acceptance and the refusal of a command (spec/60_exceptions.md R178, R180). -/
namespace Sys2Proof.Machine

/-! A command at the port, by its code (R84) -/

theorem issue_encode {c : HostCommand} (h : c.code = 0x01) (s : State) : issue c s = execEncode c.input c.n s := by
  rw [issue, decodeCommand, if_pos h]
  rfl

theorem issue_findMatch {c : HostCommand} (h : c.code = 0x02) (s : State) :
    issue c s = execFindMatch c.hist c.look c.m s := by
  rw [issue, decodeCommand, if_neg (by rw [h]; decide), if_pos h]
  rfl

theorem issue_unknown {c : HostCommand} (h1 : c.code ≠ 0x01) (h2 : c.code ≠ 0x02) (s : State) :
    issue c s = .refused (.unknownCommandCode c.code) := by
  rw [issue, decodeCommand, if_neg h1, if_neg h2]

/-! What each command answers (R180 (a), (c), (d)) -/

theorem execEncode_of_running {s : State} (hp : s.phase = .run) (input : Memory) (n : Nat) :
    execEncode input n s = .refused .commandWhileRunning :=
  if_pos hp

theorem execFindMatch_of_running {s : State} (hp : s.phase = .run) (hist look : Memory) (m : Nat) :
    execFindMatch hist look m s = .refused .commandWhileRunning :=
  if_pos hp

/-- Outside RUN an ENCODE is accepted or refused by its length alone. -/
theorem execEncode_of_quiet {s : State} (hp : s.phase ≠ .run) (input : Memory) (n : Nat) :
    execEncode input n s = if n = input.size then .next (startEncode input n s) else .refused .encodeLengthMismatch :=
  if_neg hp

/-- Outside RUN a FIND_MATCH is accepted or refused by the ranges of its operands alone. -/
theorem execFindMatch_of_quiet {s : State} (hp : s.phase ≠ .run) (hist look : Memory) (m : Nat) :
    execFindMatch hist look m s =
      if findMatchOperandsOk s.cfg hist look m then
        .next (succeed { s with
          mfLen := BitVec.ofNat 17 (commandMatch hist look m).1
          mfDisp := BitVec.ofNat 13 (commandMatch hist look m).2 })
      else .refused .findMatchOperands :=
  if_neg hp

/-! The two sets of commands -/

/-- R178: the block is not running and the command is one of the two, with operands that agree. -/
def CommandAccepted (s : State) (c : HostCommand) : Prop :=
  s.phase ≠ .run ∧
    ((c.code = 0x01 ∧ c.n = c.input.size) ∨
      (c.code = 0x02 ∧ c.hist.size ≤ 4096 ∧ c.look.size ≤ s.cfg.maxMatch ∧ 1 ≤ c.m ∧ c.m ≤ 4096))

/-- R180: the four cases (a) to (d), in its order. -/
def CommandListedForRefusal (s : State) (c : HostCommand) : Prop :=
  s.phase = .run ∨ (c.code ≠ 0x01 ∧ c.code ≠ 0x02) ∨
    (c.code = 0x02 ∧ ¬(c.hist.size ≤ 4096 ∧ c.look.size ≤ s.cfg.maxMatch ∧ 1 ≤ c.m ∧ c.m ≤ 4096)) ∨
    (c.code = 0x01 ∧ c.n ≠ c.input.size)

/-- A command that R180 does not list is accepted: a known code leaves its own operand case to fail. -/
theorem CommandAccepted.of_not_listed {s : State} {c : HostCommand} (h : ¬CommandListedForRefusal s c) :
    CommandAccepted s c := by
  rw [CommandListedForRefusal, not_or, not_or, not_or] at h
  obtain ⟨hquiet, hcode, hfind, hencode⟩ := h
  refine ⟨hquiet, ?_⟩
  by_cases h1 : c.code = 0x01
  · exact .inl ⟨h1, by_contra fun hlen => hencode ⟨h1, hlen⟩⟩
  · have h2 : c.code = 0x02 := by_contra fun h2 => hcode ⟨h1, h2⟩
    exact .inr ⟨h2, by_contra fun hbad => hfind ⟨h2, hbad⟩⟩

theorem CommandAccepted.issue_eq_next {s : State} {c : HostCommand} (h : CommandAccepted s c) :
    ∃ t, issue c s = .next t := by
  obtain ⟨hquiet, ⟨hcode, hlen⟩ | ⟨hcode, hok⟩⟩ := h
  · rw [issue_encode hcode, execEncode_of_quiet hquiet, if_pos hlen]
    exact ⟨_, rfl⟩
  · rw [issue_findMatch hcode, execFindMatch_of_quiet hquiet, if_pos (findMatchOperandsOk_iff.2 hok)]
    exact ⟨_, rfl⟩

/-- In RUN every command is refused, whatever its code: for a code LZE does not know the model reports R180 (b)
(log 26). -/
theorem issue_of_running {s : State} (hp : s.phase = .run) (c : HostCommand) : ∃ r, issue c s = .refused r := by
  by_cases h1 : c.code = 0x01
  · exact ⟨_, (issue_encode h1 s).trans (execEncode_of_running hp _ _)⟩
  · by_cases h2 : c.code = 0x02
    · exact ⟨_, (issue_findMatch h2 s).trans (execFindMatch_of_running hp _ _ _)⟩
    · exact ⟨_, issue_unknown h1 h2 s⟩

/-- Each case of R180 is a refusal; the two operand cases are read outside RUN, where nothing else refuses first. -/
theorem CommandListedForRefusal.issue_eq_refused {s : State} {c : HostCommand} (h : CommandListedForRefusal s c) :
    ∃ r, issue c s = .refused r := by
  by_cases hp : s.phase = .run
  · exact issue_of_running hp c
  · obtain hrun | ⟨h1, h2⟩ | ⟨hcode, hbad⟩ | ⟨hcode, hlen⟩ := h
    · exact absurd hrun hp
    · exact ⟨_, issue_unknown h1 h2 s⟩
    · rw [issue_findMatch hcode, execFindMatch_of_quiet hp, if_neg (mt findMatchOperandsOk_iff.1 hbad)]
      exact ⟨_, rfl⟩
    · rw [issue_encode hcode, execEncode_of_quiet hp, if_neg hlen]
      exact ⟨_, rfl⟩

/-! Every command is listed or accepted, and no answer is both a refusal and a next state: each answer names its set. -/

theorem issue_eq_refused_iff {s : State} {c : HostCommand} :
    (∃ r, issue c s = .refused r) ↔ CommandListedForRefusal s c := by
  refine ⟨fun ⟨r, hr⟩ => ?_, CommandListedForRefusal.issue_eq_refused⟩
  by_contra hnot
  obtain ⟨t, ht⟩ := (CommandAccepted.of_not_listed hnot).issue_eq_next
  cases hr.symm.trans ht

theorem issue_eq_next_iff {s : State} {c : HostCommand} : (∃ t, issue c s = .next t) ↔ CommandAccepted s c := by
  refine ⟨fun ⟨t, ht⟩ => .of_not_listed fun hlisted => ?_, CommandAccepted.issue_eq_next⟩
  obtain ⟨r, hr⟩ := hlisted.issue_eq_refused
  cases hr.symm.trans ht

end Sys2Proof.Machine

namespace Sys2Proof

open Machine

/-- Settles O31: a command that comes now is issued with the host's list advanced, which neither set of commands looks
at; `issue` refuses exactly what R180 lists and accepts exactly the rest. -/
theorem commandIsRefusedExactlyWhenListed : Obligations.CommandIsRefusedExactlyWhenListed := by
  unfold Obligations.CommandIsRefusedExactlyWhenListed
  intro s c rest hhost
  have hstep : step s = issue c { s with host := rest } := step_of_move hhost (fun hwait => by cases hwait)
  rw [hstep]
  exact ⟨issue_eq_refused_iff, issue_eq_next_iff⟩

end Sys2Proof
end

section
/-! The decoder of a match and of a header on the bytes written for it, and the bytes it accepts (spec/30_encoding.md
R71, R74 to R79). -/
namespace Sys2Proof

open Machine

/-! Bytes as numbers -/

@[simp] theorem hiNibble_ofNat (x : Nat) : hiNibble (BitVec.ofNat 8 x) = x % 256 / 16 := by
  rw [hiNibble, BitVec.toNat_ofNat]

@[simp] theorem loNibble_ofNat (x : Nat) : loNibble (BitVec.ofNat 8 x) = x % 16 := by
  rw [loNibble, BitVec.toNat_ofNat]
  omega

theorem byte_ofNat_inj {a b : Nat} : BitVec.ofNat 8 a = BitVec.ofNat 8 b ↔ a % 256 = b % 256 := by
  rw [← BitVec.toNat_inj, BitVec.toNat_ofNat, BitVec.toNat_ofNat]

/-- A number below 256 that is a byte's number makes that byte. -/
theorem eq_byte_ofNat {b : Byte} {x : Nat} (h : b.toNat = x) : b = BitVec.ofNat 8 x := by
  rw [← h, byte_ofNat_toNat]

/-! The three branches of the tier (R79) -/

theorem decodeTier_of_short {b0 : Byte} (h : 2 ≤ hiNibble b0) (b1 : Byte) (rest : List Byte) :
    decodeTier (b0 :: b1 :: rest) =
      .ok (.encShort (hiNibble b0 + 1) (loNibble b0 * 256 + b1.toNat + 1), rest) :=
  (if_neg (show ¬ hiNibble b0 = 0 by omega)).trans (if_neg (show ¬ hiNibble b0 = 1 by omega))

theorem decodeTier_of_medium {b0 : Byte} (h : hiNibble b0 = 0) (b1 b2 : Byte) (rest : List Byte) :
    decodeTier (b0 :: b1 :: b2 :: rest) =
      .ok (.encMedium (loNibble b0 * 16 + hiNibble b1 + 17) (loNibble b1 * 256 + b2.toNat + 1), rest) := by
  rw [decodeTier, if_pos h]

theorem decodeTier_of_long {b0 : Byte} (h : hiNibble b0 = 1) (b1 b2 b3 : Byte) (rest : List Byte) :
    decodeTier (b0 :: b1 :: b2 :: b3 :: rest) =
      .ok (.encLong (loNibble b0 * 4096 + b1.toNat * 16 + hiNibble b2 + 273)
        (loNibble b2 * 256 + b3.toNat + 1), rest) := by
  rw [decodeTier, if_neg (by omega), if_pos h]

/-! Decoding what a serializer wrote -/

theorem decodeTier_shortBytes {l d : Nat} (hl : 3 ≤ l ∧ l ≤ 16) (hd : 1 ≤ d ∧ d ≤ 4096) (rest : List Byte) :
    decodeTier (shortBytes l d ++ rest) = .ok (.encShort l d, rest) := by
  rw [shortBytes_eq hd.2, List.cons_append, List.cons_append, List.nil_append,
    decodeTier_of_short (by rw [hiNibble_ofNat]; omega)]
  simp only [hiNibble_ofNat, loNibble_ofNat, BitVec.toNat_ofNat, Except.ok.injEq, Prod.mk.injEq,
    Instr.encShort.injEq, and_true]
  omega

theorem decodeTier_mediumBytes {l d : Nat} (hl : 17 ≤ l ∧ l ≤ 272) (hd : 1 ≤ d ∧ d ≤ 4096) (rest : List Byte) :
    decodeTier (mediumBytes l d ++ rest) = .ok (.encMedium l d, rest) := by
  rw [mediumBytes_eq hl.2 hd.2, List.cons_append, List.cons_append, List.cons_append, List.nil_append,
    decodeTier_of_medium (by rw [hiNibble_ofNat]; omega)]
  simp only [hiNibble_ofNat, loNibble_ofNat, BitVec.toNat_ofNat, Except.ok.injEq, Prod.mk.injEq,
    Instr.encMedium.injEq, and_true]
  omega

theorem decodeTier_longBytes {l d : Nat} (hl : 273 ≤ l ∧ l ≤ 0x10110) (hd : 1 ≤ d ∧ d ≤ 4096) (rest : List Byte) :
    decodeTier (longBytes l d ++ rest) = .ok (.encLong l d, rest) := by
  rw [longBytes_eq hl.2 hd.2, List.cons_append, List.cons_append, List.cons_append, List.cons_append, List.nil_append,
    decodeTier_of_long (by rw [hiNibble_ofNat]; omega)]
  simp only [hiNibble_ofNat, loNibble_ofNat, BitVec.toNat_ofNat, Except.ok.injEq, Prod.mk.injEq,
    Instr.encLong.injEq, and_true]
  omega

theorem decodeToken_of_tier {bytes rest : List Byte} {i : Instr} (h : decodeTier bytes = .ok (i, rest)) :
    decodeToken true bytes = .ok (asToken i, rest) := by
  rw [decodeToken, h]

/-- A match token reads back from the tier its length chose. -/
theorem decodeToken_matchWordBytes {l d : Nat} (hl : 3 ≤ l ∧ l ≤ 0x10110) (hd : 1 ≤ d ∧ d ≤ 4096)
    (rest : List Byte) : decodeToken true (matchWordBytes l d ++ rest) = .ok (.tokMatch l d, rest) := by
  rw [matchWordBytes_eq_matchBytes hl.2 hd.2, matchBytes]
  split
  · exact decodeToken_of_tier (decodeTier_shortBytes ⟨hl.1, ‹_›⟩ hd rest)
  · split
    · exact decodeToken_of_tier (decodeTier_mediumBytes ⟨by omega, ‹_›⟩ hd rest)
    · exact decodeToken_of_tier (decodeTier_longBytes ⟨by omega, hl.2⟩ hd rest)

/-! The serialized matches the decoder accepts -/

/-- The serializer instruction `i` of a match in its tier's range, and its bytes. -/
inductive TierBytes : Instr → List Byte → Prop where
  | short {l d : Nat} : 3 ≤ l ∧ l ≤ 16 → 1 ≤ d ∧ d ≤ 4096 → TierBytes (.encShort l d) (shortBytes l d)
  | medium {l d : Nat} : 17 ≤ l ∧ l ≤ 272 → 1 ≤ d ∧ d ≤ 4096 → TierBytes (.encMedium l d) (mediumBytes l d)
  | long {l d : Nat} : 273 ≤ l ∧ l ≤ 0x10110 → 1 ≤ d ∧ d ≤ 4096 → TierBytes (.encLong l d) (longBytes l d)

theorem tierBytes_short {b0 : Byte} (h : 2 ≤ hiNibble b0) (b1 : Byte) :
    TierBytes (.encShort (hiNibble b0 + 1) (loNibble b0 * 256 + b1.toNat + 1)) [b0, b1] := by
  have h0 := nibbles b0
  have hhi := hiNibble_lt b0
  have hlo := loNibble_lt b0
  have hb1 := b1.isLt
  have hbytes : shortBytes (hiNibble b0 + 1) (loNibble b0 * 256 + b1.toNat + 1) = [b0, b1] := by
    rw [shortBytes_eq (by omega), eq_comm, List.cons_eq_cons, List.cons_eq_cons]
    exact ⟨eq_byte_ofNat (by omega), eq_byte_ofNat (by omega), rfl⟩
  rw [← hbytes]
  exact .short (by omega) (by omega)

theorem tierBytes_medium {b0 : Byte} (h : hiNibble b0 = 0) (b1 b2 : Byte) :
    TierBytes (.encMedium (loNibble b0 * 16 + hiNibble b1 + 17) (loNibble b1 * 256 + b2.toNat + 1)) [b0, b1, b2] := by
  have h0 := nibbles b0
  have h1 := nibbles b1
  have hlo0 := loNibble_lt b0
  have hhi1 := hiNibble_lt b1
  have hlo1 := loNibble_lt b1
  have hb2 := b2.isLt
  have hbytes : mediumBytes (loNibble b0 * 16 + hiNibble b1 + 17) (loNibble b1 * 256 + b2.toNat + 1) =
      [b0, b1, b2] := by
    rw [mediumBytes_eq (by omega) (by omega), eq_comm, List.cons_eq_cons, List.cons_eq_cons, List.cons_eq_cons]
    exact ⟨eq_byte_ofNat (by omega), eq_byte_ofNat (by omega), eq_byte_ofNat (by omega), rfl⟩
  rw [← hbytes]
  exact .medium (by omega) (by omega)

theorem tierBytes_long {b0 : Byte} (h : hiNibble b0 = 1) (b1 b2 b3 : Byte) :
    TierBytes (.encLong (loNibble b0 * 4096 + b1.toNat * 16 + hiNibble b2 + 273)
      (loNibble b2 * 256 + b3.toNat + 1)) [b0, b1, b2, b3] := by
  have h0 := nibbles b0
  have h2 := nibbles b2
  have hlo0 := loNibble_lt b0
  have hb1 := b1.isLt
  have hhi2 := hiNibble_lt b2
  have hlo2 := loNibble_lt b2
  have hb3 := b3.isLt
  have hbytes : longBytes (loNibble b0 * 4096 + b1.toNat * 16 + hiNibble b2 + 273)
      (loNibble b2 * 256 + b3.toNat + 1) = [b0, b1, b2, b3] := by
    rw [longBytes_eq (by omega) (by omega), eq_comm, List.cons_eq_cons, List.cons_eq_cons, List.cons_eq_cons,
      List.cons_eq_cons]
    exact ⟨eq_byte_ofNat (by omega), eq_byte_ofNat (by omega), eq_byte_ofNat (by omega), eq_byte_ofNat (by omega), rfl⟩
  rw [← hbytes]
  exact .long (by omega) (by omega)

/-- What the tier decoder accepts is a serialized match. -/
theorem decodeTier_eq_ok {bytes rest : List Byte} {i : Instr} (h : decodeTier bytes = .ok (i, rest)) :
    ∃ head, TierBytes i head ∧ bytes = head ++ rest := by
  unfold decodeTier at h
  split at h
  · cases h
  · rename_i b0 t
    split at h
    · rename_i hmedium
      split at h
      · rename_i b1 b2 rest'
        cases h
        exact ⟨_, tierBytes_medium hmedium b1 b2, rfl⟩
      · cases h
    · split at h
      · rename_i hlong
        split at h
        · rename_i b1 b2 b3 rest'
          cases h
          exact ⟨_, tierBytes_long hlong b1 b2 b3, rfl⟩
        · cases h
      · split at h
        · rename_i b1 rest'
          cases h
          exact ⟨_, tierBytes_short (by omega) b1, rfl⟩
        · cases h

theorem TierBytes.encode_eq {i : Instr} {bytes : List Byte} (h : TierBytes i bytes) (cfg : Config) :
    encode cfg i = bytes := by
  cases h with
  | short hl hd => exact beBytes_wordShort hd.2
  | medium hl hd => exact beBytes_wordMedium hl.2 hd.2
  | long hl hd => exact beBytes_wordLong hl.2 hd.2

/-- The token of a serialized match has the same bytes: its length chooses the tier it came in. -/
theorem TierBytes.encode_asToken {i : Instr} {bytes : List Byte} (h : TierBytes i bytes) (cfg : Config) :
    encode cfg (asToken i) = bytes := by
  rw [← h.encode_eq cfg]
  cases h with
  | short hl hd => exact if_pos hl.2
  | medium hl hd => exact (if_neg (by omega)).trans (if_pos hl.2)
  | long hl hd => exact (if_neg (by omega)).trans (if_neg (by omega))

theorem checkMatch_eq_none {lo hi l d : Nat} :
    checkMatch lo hi l d = none ↔ (lo ≤ l ∧ l ≤ hi) ∧ 1 ≤ d ∧ d ≤ 4096 := by
  unfold checkMatch window
  split
  · simp only [reduceCtorEq, false_iff]
    omega
  · split
    · simp only [reduceCtorEq, false_iff]
      omega
    · simp only [true_iff]
      omega

theorem TierBytes.wf {i : Instr} {bytes : List Byte} (h : TierBytes i bytes) (cfg : Config) : i.Wf cfg := by
  cases h with
  | short hl hd => exact checkMatch_eq_none.2 ⟨hl, hd⟩
  | medium hl hd => exact checkMatch_eq_none.2 ⟨hl, hd⟩
  | long hl hd => exact checkMatch_eq_none.2 ⟨hl, hd⟩

theorem TierBytes.asToken_wf {i : Instr} {bytes : List Byte} (h : TierBytes i bytes) {cfg : Config}
    (hmax : cfg.maxMatch = maxMatchLimit) : (asToken i).Wf cfg := by
  have hrange : ∀ {l d : Nat}, 3 ≤ l ∧ l ≤ 0x10110 → 1 ≤ d ∧ d ≤ 4096 → (Instr.tokMatch l d).Wf cfg :=
    fun hl hd => checkMatch_eq_none.2 ⟨by rw [hmax]; exact hl, hd⟩
  cases h with
  | short hl hd => exact hrange (by omega) hd
  | medium hl hd => exact hrange (by omega) hd
  | long hl hd => exact hrange (by omega) hd

/-! The header (R71, R162) -/

/-- The header's bytes by the formula of R160 are its word's (R71). -/
theorem headerBytes_eq_encode (cfg : Config) (n : BitVec 24) : headerBytes cfg n.toNat = encode cfg (.hdr n) := by
  rw [headerBytes_eq, encode, beBytes_wordHeader]

theorem decodeHeader_of_length {cfg : Config} {b1 b2 b3 : Byte} {n : BitVec 24}
    (h : headerLength cfg.hdrB3Shift b1 b2 b3 = .ok n) (rest : List Byte) :
    decodeHeader cfg (0x11 :: b1 :: b2 :: b3 :: rest) = .ok (.hdr n, rest) := by
  rw [decodeHeader, if_pos (by decide), h]

/-- The three length bytes of a header give the length back; at shift 15 only without bit 23. -/
theorem headerLength_of_bytes {shift : HdrShift} {n : BitVec 24} (h : shift = .s15 → n.toNat < 0x800000) :
    headerLength shift (BitVec.ofNat 8 (n.toNat % 256)) (BitVec.ofNat 8 (n.toNat / 256 % 256))
      (BitVec.ofNat 8 (n.toNat / 2 ^ shift.amount % 256)) = .ok n := by
  have hn := n.isLt
  cases shift with
  | s15 =>
    have hlow := h rfl
    simp only [headerLength, HdrShift.amount, BitVec.toNat_ofNat]
    rw [if_pos (by omega)]
    exact congrArg _ (BitVec.eq_of_toNat_eq (by rw [BitVec.toNat_ofNat]; omega))
  | s16 =>
    simp only [headerLength, HdrShift.amount, BitVec.toNat_ofNat]
    exact congrArg _ (BitVec.eq_of_toNat_eq (by rw [BitVec.toNat_ofNat]; omega))

theorem decodeHeader_headerBytes {cfg : Config} {n : BitVec 24} (h : cfg.hdrB3Shift = .s15 → n.toNat < 0x800000)
    (rest : List Byte) : decodeHeader cfg (headerBytes cfg n.toNat ++ rest) = .ok (.hdr n, rest) := by
  rw [headerBytes_eq]
  exact decodeHeader_of_length (headerLength_of_bytes h) rest

/-- Length bytes that stand for a length are those of its header. -/
theorem headerBytes_of_length {cfg : Config} {b1 b2 b3 : Byte} {n : BitVec 24}
    (h : headerLength cfg.hdrB3Shift b1 b2 b3 = .ok n) : headerBytes cfg n.toNat = [0x11, b1, b2, b3] := by
  have hb1 := b1.isLt
  have hb2 := b2.isLt
  have hb3 := b3.isLt
  have hsplit : b1.toNat = n.toNat % 256 ∧ b2.toNat = n.toNat / 256 % 256 ∧
      b3.toNat = n.toNat / 2 ^ cfg.hdrB3Shift.amount % 256 := by
    cases hs : cfg.hdrB3Shift with
    | s15 =>
      rw [hs] at h
      simp only [headerLength] at h
      split at h
      · cases h
        simp only [BitVec.toNat_ofNat, HdrShift.amount]
        omega
      · cases h
    | s16 =>
      rw [hs] at h
      cases h
      simp only [BitVec.toNat_ofNat, HdrShift.amount]
      omega
  obtain ⟨h1, h2, h3⟩ := hsplit
  rw [headerBytes_eq, ← h1, ← h2, ← h3, byte_ofNat_toNat, byte_ofNat_toNat, byte_ofNat_toNat]

/-- What the header decoder accepts is the header of the length it answers. -/
theorem decodeHeader_eq_ok {cfg : Config} {bytes rest : List Byte} {i : Instr}
    (h : decodeHeader cfg bytes = .ok (i, rest)) : ∃ n, i = .hdr n ∧ bytes = headerBytes cfg n.toNat ++ rest := by
  unfold decodeHeader at h
  split at h
  · rename_i b0 b1 b2 b3 rest'
    split at h
    · rename_i htag
      split at h
      · rename_i n hlength
        cases h
        refine ⟨n, rfl, ?_⟩
        rw [headerBytes_of_length hlength, eq_byte_ofNat htag]
        rfl
      · cases h
    · cases h
  · split at h <;> cases h
  · cases h

end Sys2Proof
end

section
/-! Decoder and encoder agree (spec/30_encoding.md, section 4). -/
namespace Sys2Proof

open Machine

/-- Settles O2: a command's code and a one-byte word read back as written; a header reads back from its length bytes,
and a match from the tier its length chose. -/
theorem decodeOfEncodeGivesTheInstruction : Obligations.DecodeOfEncodeGivesTheInstruction := by
  unfold Obligations.DecodeOfEncodeGivesTheInstruction
  intro cfg i rest hlegal hwf hbit23
  cases i with
  | encode input n => rfl
  | findMatch hist look m => rfl
  | hdr n =>
    rw [place, ← headerBytes_eq_encode]
    exact decodeHeader_headerBytes (hbit23 n rfl) rest
  | blkFlush f => rfl
  | tokLiteral b => rfl
  | tokMatch l d =>
    obtain ⟨hl, hd⟩ := checkMatch_eq_none.1 hwf
    exact decodeToken_matchWordBytes ⟨hl.1, hl.2.trans hlegal.2⟩ hd rest
  | encShort l d =>
    obtain ⟨hl, hd⟩ := checkMatch_eq_none.1 hwf
    rw [place, (TierBytes.short hl hd).encode_eq]
    exact decodeTier_shortBytes hl hd rest
  | encMedium l d =>
    obtain ⟨hl, hd⟩ := checkMatch_eq_none.1 hwf
    rw [place, (TierBytes.medium hl hd).encode_eq]
    exact decodeTier_mediumBytes hl hd rest
  | encLong l d =>
    obtain ⟨hl, hd⟩ := checkMatch_eq_none.1 hwf
    rw [place, (TierBytes.long hl hd).encode_eq]
    exact decodeTier_longBytes hl hd rest

/-! The places of a byte stream, one by one -/

/-- The accepted bytes are the encoder's, and the answer is well formed. -/
abbrev Reencodes (cfg : Config) (bytes rest : List Byte) (i : Instr) : Prop :=
  bytes = encode cfg i ++ rest ∧ i.Wf cfg

theorem reencodes_of_decodeHeader {cfg : Config} {bytes rest : List Byte} {i : Instr}
    (h : decodeHeader cfg bytes = .ok (i, rest)) : Reencodes cfg bytes rest i := by
  obtain ⟨n, rfl, hbytes⟩ := decodeHeader_eq_ok h
  exact ⟨by rw [hbytes, headerBytes_eq_encode], rfl⟩

theorem reencodes_of_decodeFlag {cfg : Config} {bytes rest : List Byte} {i : Instr}
    (h : decodeFlag bytes = .ok (i, rest)) : Reencodes cfg bytes rest i := by
  cases bytes with
  | nil => cases h
  | cons f tail =>
    cases h
    exact ⟨rfl, rfl⟩

theorem reencodes_of_decodeLiteral {cfg : Config} {bytes rest : List Byte} {i : Instr}
    (h : decodeToken false bytes = .ok (i, rest)) : Reencodes cfg bytes rest i := by
  cases bytes with
  | nil => cases h
  | cons b tail =>
    cases h
    exact ⟨rfl, rfl⟩

theorem reencodes_of_decodeTier {cfg : Config} {bytes rest : List Byte} {i : Instr}
    (h : decodeTier bytes = .ok (i, rest)) : Reencodes cfg bytes rest i := by
  obtain ⟨head, htier, hbytes⟩ := decodeTier_eq_ok h
  exact ⟨by rw [hbytes, htier.encode_eq], htier.wf cfg⟩

theorem reencodes_of_decodeMatch {cfg : Config} {bytes rest : List Byte} {i : Instr}
    (hmax : cfg.maxMatch = maxMatchLimit) (h : decodeToken true bytes = .ok (i, rest)) :
    Reencodes cfg bytes rest i := by
  rw [decodeToken] at h
  split at h
  · rename_i j rest' hj
    cases h
    obtain ⟨head, htier, hbytes⟩ := decodeTier_eq_ok hj
    exact ⟨by rw [hbytes, htier.encode_asToken], htier.asToken_wf hmax⟩
  · cases h

/-- Settles O3, place by place. -/
theorem encodeOfDecodeGivesTheBytes : Obligations.EncodeOfDecodeGivesTheBytes := by
  unfold Obligations.EncodeOfDecodeGivesTheBytes
  intro cfg bytes rest i hmax place hplace h
  simp only [List.mem_cons, List.not_mem_nil, or_false] at hplace
  obtain rfl | rfl | rfl | rfl | rfl := hplace
  · exact reencodes_of_decodeHeader h
  · exact reencodes_of_decodeFlag h
  · exact reencodes_of_decodeLiteral h
  · exact reencodes_of_decodeMatch hmax h
  · exact reencodes_of_decodeTier h

/-- Settles O4: in each tier the first byte is written out, and its nibble is `L - 1`, the marker 0 or the marker 1. -/
theorem firstNibbleTellsTheTier : Obligations.FirstNibbleTellsTheTier := by
  unfold Obligations.FirstNibbleTellsTheTier
  intro l d hl hl' hd hd'
  have hlength := matchBytes_length l d
  by_cases hshort : l ≤ 16
  · refine ⟨_, _, (if_pos hshort).trans (shortBytes_eq hd'), ?_, ?_, ?_, hlength⟩ <;>
      rw [hiNibble_ofNat] <;> omega
  · by_cases hmedium : l ≤ 272
    · refine ⟨_, _, (if_neg hshort).trans ((if_pos hmedium).trans (mediumBytes_eq hmedium hd')), ?_, ?_, ?_,
        hlength⟩ <;>
        rw [hiNibble_ofNat] <;> omega
    · refine ⟨_, _, (if_neg hshort).trans ((if_neg hmedium).trans (longBytes_eq hl' hd')), ?_, ?_, ?_,
        hlength⟩ <;>
        rw [hiNibble_ofNat] <;> omega

/-- Settles O5: each tier's bytes are its word's, the tier is chosen alike, and so is the header. -/
theorem serializersWriteTheFormatWords : Obligations.SerializersWriteTheFormatWords := by
  unfold Obligations.SerializersWriteTheFormatWords
  intro cfg l d n _ hd
  exact ⟨fun _ _ => (beBytes_wordShort hd).symm, fun _ hl => (beBytes_wordMedium hl hd).symm,
    fun _ hl => (beBytes_wordLong hl hd).symm, fun _ hl => (matchWordBytes_eq_matchBytes hl hd).symm,
    headerBytes_eq_encode cfg n⟩

/-- Two lengths have one header when their low 16 bits and their byte 3 agree. -/
theorem headerBytes_inj_iff {cfg : Config} {a b : Nat} :
    headerBytes cfg a = headerBytes cfg b ↔ a % 256 = b % 256 ∧ a / 256 % 256 = b / 256 % 256 ∧
      a / 2 ^ cfg.hdrB3Shift.amount % 256 = b / 2 ^ cfg.hdrB3Shift.amount % 256 := by
  simp only [headerBytes_eq, List.cons.injEq, true_and, and_true, byte_ofNat_inj, Nat.mod_mod]

theorem extractLow23_inj_iff {n n' : BitVec 24} :
    n.extractLsb' 0 23 = n'.extractLsb' 0 23 ↔ n.toNat % 0x800000 = n'.toNat % 0x800000 := by
  rw [← BitVec.toNat_inj, BitVec.extractLsb'_toNat, BitVec.extractLsb'_toNat, Nat.shiftRight_zero, Nat.shiftRight_zero]

/-- Settles O6: at shift 15 the header holds bits 0 to 22 and bit 15 twice; at 16 it holds all 24. -/
theorem headerAtShift15LosesExactlyBit23 : Obligations.HeaderAtShift15LosesExactlyBit23 := by
  unfold Obligations.HeaderAtShift15LosesExactlyBit23
  intro cfg n n'
  have hn := n.isLt
  have hn' := n'.isLt
  refine ⟨fun hshift => ?_, fun hshift => ?_⟩
  · rw [headerBytes_inj_iff, extractLow23_inj_iff, hshift, HdrShift.amount]
    omega
  · rw [headerBytes_inj_iff, ← BitVec.toNat_inj, hshift, HdrShift.amount]
    omega

/-- Settles O1: each word is run through the decoder. -/
theorem specWordsDecodeToTheirInstructions : Obligations.SpecWordsDecodeToTheirInstructions := by
  unfold Obligations.SpecWordsDecodeToTheirInstructions
  exact ⟨rfl, rfl, rfl, rfl, rfl, rfl, rfl, fun _ _ _ _ _ => rfl, fun _ _ _ _ _ => rfl⟩

end Sys2Proof
end

section
/-! The greedy parse of an input and the size of its stream (spec/41_token_packer.md R136 to R139). -/
namespace Sys2Proof

open Machine

@[simp] theorem consumedBy_nil : consumedBy [] = 0 := rfl

@[simp] theorem consumedBy_cons (t : Token) (ts : List Token) : consumedBy (t :: ts) = t.consumed + consumedBy ts := by
  simp [consumedBy]

@[simp] theorem tokenBytes_nil : tokenBytes [] = [] := rfl

@[simp] theorem tokenBytes_cons (t : Token) (ts : List Token) : tokenBytes (t :: ts) = t.bytes ++ tokenBytes ts := by
  simp [tokenBytes]

/-- The parse consumes the whole input (R137). -/
theorem consumedBy_parse (cfg : Config) (input : Memory) : consumedBy (parse cfg input) = input.size := by
  rw [parse, parseFrom_consumed cfg input 0 (Nat.zero_le _), Nat.sub_zero]

/-- The parse from a cursor begins with the token there, and goes on behind it. -/
theorem parseFrom_eq_cons {cfg : Config} {input : Memory} {c : Nat} {t : Token} {ts : List Token}
    (h : parseFrom cfg input c = t :: ts) :
    c < input.size ∧ t = tokenAt cfg input c ∧ parseFrom cfg input (c + t.consumed) = ts := by
  by_cases hc : c < input.size
  · rw [parseFrom_lt cfg input c hc, List.cons_eq_cons] at h
    obtain ⟨rfl, rfl⟩ := h
    exact ⟨hc, rfl, rfl⟩
  · rw [parseFrom_ge cfg input c (Nat.le_of_not_lt hc)] at h
    cases h

/-- Each token of the parse is the one at the cursor its predecessors lead to. -/
theorem parse_eq_append_cons {cfg : Config} {input : Memory} {before after : List Token} {t : Token}
    (h : parse cfg input = before ++ t :: after) :
    consumedBy before < input.size ∧ t = tokenAt cfg input (consumedBy before) := by
  obtain ⟨hrest, -⟩ := parseFrom_split cfg input 0 (Nat.zero_le _) before (t :: after) h
  rw [Nat.zero_add] at hrest
  obtain ⟨hinside, htoken, -⟩ := parseFrom_eq_cons hrest.symm
  exact ⟨hinside, htoken⟩

/-- At cursor 0 there is no history, so no displacement and no match (R110). -/
theorem tokenAt_zero (cfg : Config) (input : Memory) : tokenAt cfg input 0 = .literal (input.read 0) := by
  obtain ⟨-, hdisp, hmatch⟩ := matchAt_bounds cfg input 0
  have hlen : (matchAt cfg input 0).1 = 0 := by
    by_contra hpos
    have := (hmatch (by omega)).1
    omega
  rw [tokenAt, hlen, if_pos (by decide)]

/-- Settles O45: each token of the parse is the finder's at its cursor, and what the finder answers there is valid. -/
theorem parseIsValidAndExact : Obligations.ParseIsValidAndExact := by
  unfold Obligations.ParseIsValidAndExact
  intro cfg input _
  refine ⟨consumedBy_parse cfg input, fun before t after h => ?_, fun t after h => ?_⟩
  · obtain ⟨hinside, rfl⟩ := parse_eq_append_cons h
    exact tokenAt_valid cfg input _ hinside
  · obtain ⟨-, rfl⟩ := parse_eq_append_cons (before := []) h
    exact tokenAt_zero cfg input

/-! The size of the stream -/

/-- No valid token takes more bytes than the input bytes it stands for. -/
theorem token_bytes_le_consumed {cfg : Config} {c n : Nat} {t : Token} (h : t.Valid cfg c n) :
    t.bytes.length ≤ t.consumed := by
  cases t with
  | literal b => exact le_rfl
  | copy l d =>
    have hl : 3 ≤ l := h.1
    have hlength : (matchWordBytes l d).length = if l ≤ 16 then 2 else if l ≤ 272 then 3 else 4 :=
      Laws.EncodedLength.tokMatch l d cfg
    simp only [Token.bytes, Token.consumed, hlength]
    split
    · omega
    · split <;> omega

/-- Tokens of at least one consumed byte each, and of no more bytes than they consume. -/
theorem lengths_le_consumedBy {ts : List Token} (h : ∀ t ∈ ts, 1 ≤ t.consumed ∧ t.bytes.length ≤ t.consumed) :
    ts.length ≤ consumedBy ts ∧ (tokenBytes ts).length ≤ consumedBy ts := by
  induction ts with
  | nil => exact ⟨le_rfl, le_rfl⟩
  | cons t ts ih =>
    obtain ⟨hcount, hbytes⟩ := ih fun u hu => h u (List.mem_cons_of_mem t hu)
    obtain ⟨hone, hlength⟩ := h t List.mem_cons_self
    simp only [List.length_cons, consumedBy_cons, tokenBytes_cons, List.length_append]
    omega

/-- The parse has at most `N` tokens, of at most `N` bytes. -/
theorem parse_lengths_le (cfg : Config) (input : Memory) :
    (parse cfg input).length ≤ input.size ∧ (tokenBytes (parse cfg input)).length ≤ input.size := by
  have hall : ∀ t ∈ parse cfg input, 1 ≤ t.consumed ∧ t.bytes.length ≤ t.consumed := by
    intro t ht
    obtain ⟨before, after, hsplit⟩ := List.append_of_mem ht
    obtain ⟨hinside, rfl⟩ := parse_eq_append_cons hsplit
    have hvalid := tokenAt_valid cfg input _ hinside
    exact ⟨(valid_consumed hvalid).1, token_bytes_le_consumed hvalid⟩
  have hle := lengths_le_consumedBy hall
  rwa [consumedBy_parse] at hle

@[simp] theorem headerOf_length (cfg : Config) (n : Nat) : (headerOf cfg n).length = 4 := beBytes_length 4 _

theorem encodedStream_length (cfg : Config) (input : Memory) : (encodedStream cfg input).length =
    4 + ((parse cfg input).length + 7) / 8 + (tokenBytes (parse cfg input)).length := by
  rw [encodedStream, List.length_append, headerOf_length, blocksOf_length, Nat.add_assoc]

theorem encodedStream_length_le (cfg : Config) (input : Memory) :
    (encodedStream cfg input).length ≤ 4 + input.size + (input.size + 7) / 8 := by
  obtain ⟨hcount, hbytes⟩ := parse_lengths_le cfg input
  rw [encodedStream_length]
  omega

/-- Settles O46: the blocks' length is counted by `blocksOf_length`, and the parse has at most `N` tokens of at most `N`
bytes. -/
theorem streamSizeIsBounded : Obligations.StreamSizeIsBounded := by
  unfold Obligations.StreamSizeIsBounded
  exact fun cfg input _ => ⟨encodedStream_length cfg input, encodedStream_length_le cfg input⟩

/-- Settles O47: the stream is within the bound that fits. -/
theorem enoughCapacityMeansSuccess : Obligations.EnoughCapacityMeansSuccess := by
  unfold Obligations.EnoughCapacityMeansSuccess
  intro cfg input _ hsize hfits
  rw [encodeResponse, if_neg (Nat.not_lt.2 hsize), if_pos (fits_mono (encodedStream_length_le cfg input) hfits)]

end Sys2Proof
end

section
/-! The reader of the stream (spec/30_encoding.md R79; log 27) on the blocks of a parse. -/
namespace Sys2Proof

open Machine

/-! What the reader has rebuilt -/

/-- The first `c` bytes of an input. -/
def rebuilt (input : Memory) (c : Nat) : List Byte := (List.range c).map input.read

@[simp] theorem rebuilt_length (input : Memory) (c : Nat) : (rebuilt input c).length = c := by simp [rebuilt]

theorem rebuilt_succ (input : Memory) (c : Nat) : rebuilt input (c + 1) = rebuilt input c ++ [input.read c] := by
  simp [rebuilt, List.range_succ]

theorem rebuilt_getD (input : Memory) {c k : Nat} (h : k < c) : (rebuilt input c).getD k 0 = input.read k := by
  simp [rebuilt, h]

/-- Copying a run of the input that repeats from `d` back rebuilds it, also where it overlaps itself (R102). -/
theorem copyBack_rebuilt {input : Memory} {d l c : Nat} (h1 : 1 ≤ d) (hd : d ≤ c)
    (hrun : ∀ j < l, input.read (c - d + j) = input.read (c + j)) :
    copyBack d l (rebuilt input c) = rebuilt input (c + l) := by
  induction l generalizing c with
  | zero => rfl
  | succ l ih =>
    have hbyte : (rebuilt input c).getD ((rebuilt input c).length - d) 0 = input.read c := by
      rw [rebuilt_length, rebuilt_getD input (by omega)]
      exact hrun 0 (Nat.succ_pos l)
    rw [copyBack, hbyte, ← rebuilt_succ, ih (by omega), show c + 1 + l = c + (l + 1) by omega]
    intro j hj
    have h := hrun (j + 1) (by omega)
    rwa [show c - d + (j + 1) = c + 1 - d + j by omega, show c + (j + 1) = c + 1 + j by omega] at h

/-! One token -/

/-- What a reader makes of a token. -/
def Token.expand : Token → List Byte → List Byte
  | .literal b, out => out ++ [b]
  | .copy l d, out => copyBack d l out

/-- The token the parse takes at a cursor gives a reader the input bytes it consumes. -/
theorem expand_tokenAt (cfg : Config) (input : Memory) (c : Nat) :
    (tokenAt cfg input c).expand (rebuilt input c) = rebuilt input (c + (tokenAt cfg input c).consumed) := by
  obtain ⟨-, hdisp, hmatch⟩ := matchAt_bounds cfg input c
  unfold tokenAt minMatch
  split
  · exact (rebuilt_succ input c).symm
  · obtain ⟨h1, hrun⟩ := hmatch (by omega)
    exact copyBack_rebuilt h1 (by omega) hrun

/-- A reader that needs more bytes takes a valid token whose flag bit is given. -/
theorem readTokens_token {cfg : Config} {c m n fuel slot : Nat} {flag : Byte} {t : Token} (hlegal : cfg.Legal)
    (hvalid : t.Valid cfg c m) (hslot : slot ≠ slots) (hflag : flag.getLsbD (7 - slot) = t.isMatch)
    (rest : List Byte) {out : List Byte} (hn : out.length < n) :
    readTokens n (fuel + 1) slot flag (t.bytes ++ rest) out =
      readTokens n fuel (slot + 1) flag rest (t.expand out) := by
  refine (if_neg (Nat.not_le.2 hn)).trans ((if_neg hslot).trans ?_)
  rw [hflag]
  cases t with
  | literal b => rfl
  | copy l d =>
    obtain ⟨hl, hmax, -, hd, -, hd'⟩ := hvalid
    simp only [Token.isMatch, Token.bytes]
    rw [decodeToken_matchWordBytes ⟨hl, hmax.trans hlegal.2⟩ ⟨hd, hd'⟩]
    rfl

/-- A reader that needs more bytes takes the flag byte that stands next. -/
theorem readTokens_flag {n fuel : Nat} (flag f : Byte) (rest : List Byte) {out : List Byte} (hn : out.length < n) :
    readTokens n (fuel + 1) slots flag (f :: rest) out = readTokens n fuel 0 f rest out :=
  (if_neg (Nat.not_le.2 hn)).trans (if_pos rfl)

/-- A reader that has all its bytes stops. -/
theorem readTokens_done {n : Nat} {out : List Byte} (hn : n ≤ out.length) (fuel slot : Nat) (flag : Byte)
    (bytes : List Byte) : readTokens n fuel slot flag bytes out = some out := by
  cases fuel <;> exact if_pos hn

/-! All tokens -/

/-- A reader that stands at cursor `c` of the input, in slot `slot` of a block with flag byte `flag`: `block` are the
tokens left of that block and `later` those of the blocks after it. -/
structure ReaderAt (cfg : Config) (input : Memory) (c slot : Nat) (flag : Byte) (block later : List Token) : Prop where
  inside : c ≤ input.size
  tokens : parseFrom cfg input c = block ++ later
  slotsLe : slot + block.length ≤ slots
  /-- only the last block may be short (R72) -/
  full : later ≠ [] → slot + block.length = slots
  flags : ∀ i t, block[i]? = some t → flag.getLsbD (7 - (slot + i)) = t.isMatch

/-- The next token of the block is the parse's; behind it the reader stands in the next slot. -/
theorem ReaderAt.next_token {cfg : Config} {input : Memory} {c slot : Nat} {flag : Byte} {t : Token}
    {block later : List Token} (h : ReaderAt cfg input c slot flag (t :: block) later) :
    c < input.size ∧ t = tokenAt cfg input c ∧ slot ≠ slots ∧ flag.getLsbD (7 - slot) = t.isMatch ∧
      ReaderAt cfg input (c + t.consumed) (slot + 1) flag block later := by
  have hslots := h.slotsLe
  rw [List.length_cons] at hslots
  obtain ⟨hlt, htoken, hrest⟩ := parseFrom_eq_cons h.tokens
  refine ⟨hlt, htoken, by omega, h.flags 0 t rfl, ?_, hrest, by omega, fun hne => ?_, fun i u hu => ?_⟩
  · rw [htoken]
    exact (valid_consumed (tokenAt_valid cfg input c hlt)).2
  · have hfull := h.full hne
    rw [List.length_cons] at hfull
    omega
  · rw [Nat.add_assoc, Nat.add_comm 1 i]
    exact h.flags (i + 1) u hu

/-- Behind a block a flag byte stands: the one of the next block's tokens. -/
theorem ReaderAt.next_block {cfg : Config} {input : Memory} {c slot : Nat} {flag : Byte} {later : List Token}
    (h : ReaderAt cfg input c slot flag [] later) (hne : later ≠ []) :
    slot = slots ∧
      ReaderAt cfg input c 0 (blockFlag (later.take slots)) (later.take slots) (later.drop slots) := by
  refine ⟨h.full hne, h.inside, ?_, by simp, fun hrest => ?_, fun i t ht => ?_⟩
  · rw [h.tokens, List.nil_append, List.take_append_drop]
  · have : later.length - slots ≠ 0 := by simpa [← List.length_eq_zero_iff] using hrest
    rw [List.length_take]
    omega
  · have hi : i < (later.take slots).length := (List.getElem?_eq_some_iff.1 ht).1
    rw [List.length_take] at hi
    rw [Nat.zero_add, blockFlag_getLsbD _ _ (lt_of_lt_of_le hi (Nat.min_le_left _ _)), ht]
    rfl

/-- With a step for each byte left, and one more, a reader rebuilds the rest of the input. -/
theorem ReaderAt.readTokens_eq {cfg : Config} {input : Memory} (hlegal : cfg.Legal) {c slot : Nat} {flag : Byte}
    {block later : List Token} (h : ReaderAt cfg input c slot flag block later) {fuel : Nat}
    (hfuel : (tokenBytes block ++ blocksOf later).length < fuel) :
    readTokens input.size fuel slot flag (tokenBytes block ++ blocksOf later) (rebuilt input c) =
      some input.toBytes := by
  induction fuel generalizing c slot flag block later with
  | zero => exact absurd hfuel (Nat.not_lt_zero _)
  | succ fuel ih =>
    by_cases hdone : input.size ≤ c
    · obtain rfl : c = input.size := Nat.le_antisymm h.inside hdone
      exact readTokens_done (by simp) _ _ _ _
    · have hmore : (rebuilt input c).length < input.size := by
        rw [rebuilt_length]
        omega
      cases block with
      | nil =>
        have hne : later ≠ [] := by
          rintro rfl
          have hconsumed := parseFrom_consumed cfg input c h.inside
          rw [h.tokens, List.append_nil, consumedBy_nil] at hconsumed
          omega
        obtain ⟨rfl, hblock⟩ := h.next_block hne
        rw [tokenBytes_nil, List.nil_append, blocksOf_cons later hne, blockOf, List.cons_append] at hfuel ⊢
        rw [readTokens_flag _ _ _ hmore]
        exact ih hblock (Nat.lt_of_succ_lt_succ hfuel)
      | cons t block =>
        obtain ⟨hlt, htoken, hslot, hflag, hrest⟩ := h.next_token
        have hvalid : t.Valid cfg c input.size := htoken ▸ tokenAt_valid cfg input c hlt
        have hexpand : t.expand (rebuilt input c) = rebuilt input (c + t.consumed) := by
          rw [htoken]
          exact expand_tokenAt cfg input c
        rw [tokenBytes_cons, List.append_assoc] at hfuel ⊢
        rw [readTokens_token hlegal hvalid hslot hflag _ hmore, hexpand]
        refine ih hrest ?_
        have := (token_bytes_length t).1
        rw [List.length_append] at hfuel
        omega

/-- Before the first block a reader stands at the end of an empty one. -/
theorem readerAt_start (cfg : Config) (input : Memory) : ReaderAt cfg input 0 slots 0x00 [] (parse cfg input) where
  inside := Nat.zero_le _
  tokens := rfl
  slotsLe := le_rfl
  full := fun _ => rfl
  flags := fun _ _ h => by cases h

/-- Settles O48: the header is the first 4 bytes, and the reader started before the first block rebuilds the input. -/
theorem streamReadsBackToTheInput : Obligations.StreamReadsBackToTheInput := by
  unfold Obligations.StreamReadsBackToTheInput
  intro cfg input hlegal
  have hblocks : (encodedStream cfg input).drop 4 = blocksOf (parse cfg input) :=
    List.drop_left' (headerOf_length cfg input.size)
  rw [hblocks]
  exact (readerAt_start cfg input).readTokens_eq hlegal (Nat.lt_succ_self _)

end Sys2Proof
end

section
/-! What each instruction does: its whole next state (spec/41_token_packer.md, 42_container_writer.md). -/
namespace Sys2Proof.Machine

/-! The header -/

/-- A byte of a length, taken out by its bits. -/
theorem ofNat_div_eq_extract (n : BitVec 24) (k : Nat) :
    BitVec.ofNat 8 (n.toNat / 2 ^ k % 256) = n.extractLsb' k 8 := by
  apply BitVec.eq_of_toNat_eq
  rw [BitVec.toNat_ofNat, Nat.mod_mod, BitVec.extractLsb'_toNat, Nat.shiftRight_eq_div_pow]

theorem headerBytes_eq_extract (cfg : Config) (n : BitVec 24) : headerBytes cfg n.toNat =
    [0x11, n.extractLsb' 0 8, n.extractLsb' 8 8, n.extractLsb' cfg.hdrB3Shift.amount 8] := by
  rw [headerBytes_eq, ← ofNat_div_eq_extract, ← ofNat_div_eq_extract, ← ofNat_div_eq_extract, Nat.pow_zero, Nat.div_one,
    show 2 ^ 8 = 256 from rfl]

/-- START writes the header the stream begins with. -/
theorem headerBytes_eq_headerOf (cfg : Config) (n : Nat) :
    headerBytes cfg (BitVec.ofNat 24 n).toNat = headerOf cfg n := headerBytes_eq_encode cfg _

theorem fits_header {s : State} {n : Nat} :
    hasRoom (headerBytes s.cfg n) s = fits s.cfg (s.out.length + 4) := rfl

/-! The flush -/

theorem hasRoom_blockImage (s : State) :
    hasRoom (blockImage s) s = fits s.cfg (s.out.length + 1 + s.blkBytes.length) := by
  rw [hasRoom_eq, blockImage_length, Nat.add_comm s.blkBytes.length 1, Nat.add_assoc]

/-- The state after a flush whose append succeeds. -/
theorem flush_of_fits {s : State} (h : fits s.cfg (s.out.length + 1 + s.blkBytes.length) = true) :
    flush s = { s with
      out := s.out ++ [s.blkFlag] ++ s.blkBytes, blkFlag := 0x00, blkCount := 0, blkBytes := [] } := by
  rw [flush_of_room (by rw [hasRoom_blockImage, h]), List.append_assoc]
  rfl

/-- The state after a flush whose append fails: the block registers stay (R172). -/
theorem flush_of_not_fits {s : State} (h : ¬fits s.cfg (s.out.length + 1 + s.blkBytes.length) = true) :
    flush s = { s with out := [], status := .allocFailure, phase := .done } :=
  flush_of_no_room (by rw [hasRoom_blockImage]; exact Bool.not_eq_true _ ▸ h)

theorem execBlkFlush_of_empty {s : State} (h : s.blkCount = 0) : exec (.blkFlush s.blkFlag) s = .next s :=
  (if_pos rfl).trans (if_pos h)

/-! The literal and the serializers -/

/-- A literal inside the input: its byte, its slot and its room are checked in this order. -/
theorem execTokLiteral_of_read {b byte : Byte} {s : State} (h : readAtCursor s = some byte) :
    execTokLiteral b s =
      if b = byte then
        if s.blkCount.toNat < slots then
          andThen (blkAppend [byte] s) fun t => .next { t with cursor := s.cursor + 1 }
        else .fault .noFreeSlot
      else .refused .bitsNotOfState := by
  rw [execTokLiteral, h]

theorem blkAppend_of_no_room {bytes : List Byte} {s : State}
    (h : ¬s.blkBytes.length + bytes.length ≤ blockBufferSize) : blkAppend bytes s = .fault .blockBufferFull :=
  if_neg h

theorem serialize_of_operands {lo hi l d : Nat} (h : serializerOperandsOk lo hi l d = true) (bytes : List Byte)
    (s : State) : serialize lo hi l d bytes s = blkAppend bytes s :=
  if_pos h

theorem serialize_of_bad_operands {lo hi l d : Nat} (h : l < lo ∨ hi < l ∨ d < 1 ∨ 4096 < d) (bytes : List Byte)
    (s : State) : serialize lo hi l d bytes s = .refused .matchOperands := by
  refine if_neg fun hok => ?_
  have := serializerOperandsOk_iff.1 hok
  omega

/-- The serializer instruction of a length (R77). -/
def serializerOf (l d : Nat) : Instr :=
  if l ≤ 16 then .encShort l d else if l ≤ 272 then .encMedium l d else .encLong l d

/-- The serializer a length chooses appends the bytes of the match. -/
theorem exec_serializerOf {l d : Nat} (hl : 3 ≤ l ∧ l ≤ 0x10110) (hd : 1 ≤ d ∧ d ≤ 4096) (s : State) :
    exec (serializerOf l d) s = blkAppend (matchBytes l d) s := by
  unfold serializerOf matchBytes
  split
  · exact serialize_of_operands (serializerOperandsOk_iff.2 ⟨hl.1, ‹_›, hd⟩) _ s
  · split
    · exact serialize_of_operands (serializerOperandsOk_iff.2 ⟨by omega, ‹_›, hd⟩) _ s
    · exact serialize_of_operands (serializerOperandsOk_iff.2 ⟨by omega, hl.2, hd⟩) _ s

/-- A match moves the cursor by its length, modulo the register's width (log 25). -/
theorem cursor_add (c : BitVec 24) (l : Nat) : BitVec.ofNat 24 (c.toNat + l) = c + BitVec.ofNat 24 l := by
  rw [BitVec.ofNat_add, BitVec.ofNat_toNat, BitVec.setWidth_eq]

/-! START -/

theorem exec_encode_of_quiet {s : State} (hp : s.phase ≠ .run) (input : Memory) :
    exec (.encode input input.size) s = .next (startEncode input input.size s) :=
  (execEncode_of_quiet hp input input.size).trans (if_pos rfl)

end Sys2Proof.Machine

namespace Sys2Proof

open Machine

/-- Settles O7: HDR is the append of the header's bytes, which are the length's bits. -/
theorem hdrAppendsTheHeaderBytes : Obligations.HdrAppendsTheHeaderBytes := by
  unfold Obligations.HdrAppendsTheHeaderBytes
  intro n s
  change Host.Outcome.next (outAppend (headerBytes s.cfg n.toNat) s) = _
  refine congrArg _ ?_
  split
  · rename_i hfits
    rw [outAppend_of_room (fits_header.trans hfits), headerBytes_eq_extract]
    cases s.cfg.hdrB3Shift <;> rfl
  · rename_i hfits
    exact outAppend_of_no_room (fits_header.trans (Bool.not_eq_true _ ▸ hfits))

/-- Settles O8: the three cases of BLK_FLUSH. -/
theorem blkFlushWritesTheBlock : Obligations.BlkFlushWritesTheBlock := by
  unfold Obligations.BlkFlushWritesTheBlock
  refine fun s => ⟨fun hcount => ?_, execBlkFlush_of_empty, fun f hf => if_neg hf⟩
  rw [execBlkFlush_of_nonempty hcount]
  split
  · rw [flush_of_fits ‹_›]
  · rw [flush_of_not_fits ‹_›]

/-- Settles O9: the checks of TOK_LITERAL, in the order it makes them. -/
theorem tokLiteralEmitsTheByteAtTheCursor : Obligations.TokLiteralEmitsTheByteAtTheCursor := by
  unfold Obligations.TokLiteralEmitsTheByteAtTheCursor
  intro b s
  refine ⟨fun hread hslot hroom => ?_, fun hend => ?_, fun hlt hne => ?_, fun hread hslot => ?_,
    fun hread hslot hroom => ?_⟩
  · have hroom' : s.blkBytes.length + [b].length ≤ blockBufferSize := hroom
    rw [exec, execTokLiteral_of_read hread, if_pos rfl, if_pos hslot, blkAppend_of_room hroom', andThen_next]
  · rw [exec, execTokLiteral, readAtCursor, Memory.read?_eq_none.2 hend]
  · rw [exec, execTokLiteral_of_read (Memory.read?_eq_some.2 ⟨hlt, rfl⟩), if_neg (Ne.symm hne)]
  · rw [exec, execTokLiteral_of_read hread, if_pos rfl, if_neg (Nat.not_lt.2 hslot)]
  · have hroom' : ¬s.blkBytes.length + [b].length ≤ blockBufferSize := Nat.not_le.2 (Nat.lt_succ_of_le hroom)
    rw [exec, execTokLiteral_of_read hread, if_pos rfl, if_pos hslot, blkAppend_of_no_room hroom', andThen_fault]

/-- Settles O11: a serializer with its operands in range appends its bytes, and 28 bytes leave room for any tier. -/
theorem serializersAppendTheirBytes : Obligations.SerializersAppendTheirBytes := by
  unfold Obligations.SerializersAppendTheirBytes
  intro l d s hd hd' hbytes
  have hroom : ∀ bytes : List Byte, bytes.length ≤ 4 → s.blkBytes.length + bytes.length ≤ blockBufferSize :=
    fun bytes h => Nat.add_le_add hbytes h
  refine ⟨fun hl hl' => ?_, fun hl hl' => ?_, fun hl hl' => ?_⟩
  · rw [← shortBytes_eq hd']
    exact serialize_of_ok (serializerOperandsOk_iff.2 ⟨hl, hl', hd, hd'⟩) (hroom _ (by decide : 2 ≤ 4))
  · rw [← mediumBytes_eq hl' hd']
    exact serialize_of_ok (serializerOperandsOk_iff.2 ⟨hl, hl', hd, hd'⟩) (hroom _ (by decide : 3 ≤ 4))
  · rw [← longBytes_eq hl' hd']
    exact serialize_of_ok (serializerOperandsOk_iff.2 ⟨hl, hl', hd, hd'⟩) (hroom _ (by decide : 4 ≤ 4))

/-- Settles O12: each range is checked before anything else. -/
theorem matchOutOfRangeIsRefused : Obligations.MatchOutOfRangeIsRefused := by
  unfold Obligations.MatchOutOfRangeIsRefused
  intro l d s
  refine ⟨fun h => serialize_of_bad_operands h _ s, fun h => serialize_of_bad_operands h _ s,
    fun h => serialize_of_bad_operands h _ s, fun h => if_neg fun hok => ?_⟩
  have := tokMatchOperandsOk_iff.1 hok
  omega

/-- Settles O13: outside RUN and in range, FIND_MATCH is accepted. -/
theorem findMatchCompletesWithTheFindersAnswer : Obligations.FindMatchCompletesWithTheFindersAnswer := by
  unfold Obligations.FindMatchCompletesWithTheFindersAnswer
  intro hist look m s hquiet hhist hlook hm hm'
  exact (execFindMatch_of_quiet hquiet hist look m).trans
    (if_pos (findMatchOperandsOk_iff.2 ⟨hhist, hlook, hm, hm'⟩))

/-- Settles O18: the three cases of START, told apart by the size and the capacity. -/
theorem encodeStarts : Obligations.EncodeStarts := by
  unfold Obligations.EncodeStarts
  intro input s hquiet
  rw [exec_encode_of_quiet hquiet, ← headerBytes_eq_headerOf]
  obtain ⟨hsize, hstart⟩ | ⟨hsize, hfits, hstart⟩ | ⟨hsize, hfits, hstart⟩ := startEncode_cases input input.size s
  · refine ⟨fun _ => congrArg _ hstart, fun hle => ?_, fun hle => ?_⟩ <;> exact absurd hsize (Nat.not_lt.2 hle)
  · refine ⟨fun hlt => absurd hlt (Nat.not_lt.2 hsize), fun _ _ => congrArg _ hstart, fun _ hno => ?_⟩
    rw [hfits] at hno
    cases hno
  · refine ⟨fun hlt => absurd hlt (Nat.not_lt.2 hsize), fun _ hyes => ?_, fun _ _ => congrArg _ hstart⟩
    rw [hfits] at hyes
    cases hyes

/-- Settles O24: START within the size bound is the append of the header to the registers it has set. -/
theorem startRunsHdr : Obligations.StartRunsHdr := by
  unfold Obligations.StartRunsHdr
  intro input s hquiet hsize
  rw [exec_encode_of_quiet hquiet, startEncode, if_neg (Nat.not_lt.2 hsize)]
  rfl

/-- Settles O25: in range both are the append of the match's bytes, and the flag bit and the cursor after it. -/
theorem tokMatchRunsItsSerializer : Obligations.TokMatchRunsItsSerializer := by
  unfold Obligations.TokMatchRunsItsSerializer
  intro l d s hlegal hl hmax hlen hd hcursor hd' hslot
  have hlTier : l ≤ 0x10110 := hmax.trans hlegal.2
  have hok : tokMatchOperandsOk s l d = true :=
    tokMatchOperandsOk_iff.2 ⟨hl, hmax, hlTier, hlen, hd, hcursor, hd'⟩
  rw [← serializerOf, exec_serializerOf ⟨hl, hlTier⟩ ⟨hd, hd'⟩, exec, execTokMatch, if_pos hok, if_pos hslot,
    markMatch_eq hslot, cursor_add]

end Sys2Proof
end

section
/-! The closed form of the finder's answer (spec/40_match_finder.md R106). -/
namespace Sys2Proof.Machine

/-- With a history shorter than the least displacement there is no candidate (R110). -/
theorem findMatch_shortHistory {h m : Nat} (hm : h < m) (w : Nat → Byte) (a : Nat) : findMatch w h a m = (0, 0) := by
  unfold findMatch
  split
  · rfl
  · rw [show h + 1 - m = 0 by omega]
    rfl

/-- Every displacement has a run length. -/
theorem exists_isRun (w : Nat → Byte) {h a d : Nat} (hd : d ≤ h) : ∃ k, IsRun w h a d k := by
  have hrun := runFrom_isRun w h a (h - d) (Nat.sub_le h d)
  rw [Nat.sub_sub_self hd] at hrun
  exact ⟨_, hrun⟩

/-- The best of the candidates is the closed form's result: candidate `i` has displacement `h - i`. -/
theorem isBestMatch_of_bestBelow {w : Nat → Byte} {h a m : Nat} {r : Nat × Nat} (hm : 1 ≤ m) (ha : a ≠ 0) (hh : m ≤ h)
    (hbest : BestBelow w h a (h + 1 - m) r) : IsBestMatch w h a m r := by
  have hsome : ¬(a = 0 ∨ h < m) := by omega
  obtain ⟨-, hmax, hzero, hpos⟩ := hbest
  have hmax' : ∀ d k, m ≤ d → d ≤ h → IsRun w h a d k → k ≤ r.1 := by
    intro d k hmd hdh hk
    refine hmax (h - d) (by omega) k ?_
    rwa [Nat.sub_sub_self hdh]
  have hpos' : 1 ≤ r.1 → m ≤ r.2 ∧ r.2 ≤ h ∧ IsRun w h a r.2 r.1 ∧
      ∀ d, m ≤ d → d ≤ h → IsRun w h a d r.1 → d ≤ r.2 := by
    intro h1
    obtain ⟨i, hi, hdisp, hrun, hfar⟩ := hpos h1
    have hmr : m ≤ r.2 := by
      rw [hdisp]
      omega
    refine ⟨hmr, hdisp ▸ Nat.sub_le h i, by rwa [hdisp], fun d hmd hdh hk => ?_⟩
    have hle := hfar (h - d) (by omega)
    rw [Nat.sub_sub_self hdh] at hle
    exact hle hk
  refine ⟨fun hno => absurd hno hsome, fun _ => ⟨?_, hmax', hzero, hpos'⟩⟩
  by_cases h1 : 1 ≤ r.1
  · obtain ⟨hmd, hdh, hrun, -⟩ := hpos' h1
    exact ⟨r.2, hmd, hdh, hrun⟩
  · obtain ⟨k, hk⟩ := exists_isRun w (a := a) hh
    have hk0 : k = r.1 := by
      have := hmax' m k le_rfl hh hk
      omega
    exact ⟨m, le_rfl, hh, hk0 ▸ hk⟩

theorem findMatch_isBestMatch (w : Nat → Byte) (h a : Nat) {m : Nat} (hm : 1 ≤ m) :
    IsBestMatch w h a m (findMatch w h a m) := by
  by_cases hnone : a = 0 ∨ h < m
  · refine ⟨fun _ => ?_, fun hsome => by omega⟩
    obtain rfl | hshort := hnone
    · exact findMatch_emptyLookahead w h m
    · exact findMatch_shortHistory hshort w a
  · rw [not_or, Nat.not_lt] at hnone
    exact isBestMatch_of_bestBelow hm hnone.1 hnone.2 (findMatch_spec w h a m hm hnone.1)

/-- The closed form has one result: two have runs that bound each other, and then displacements that do. -/
theorem IsBestMatch.unique {w : Nat → Byte} {h a m : Nat} {r r' : Nat × Nat} (hr : IsBestMatch w h a m r)
    (hr' : IsBestMatch w h a m r') : r = r' := by
  by_cases hnone : a = 0 ∨ h < m
  · rw [hr.1 hnone, hr'.1 hnone]
  · have hsome : a ≠ 0 ∧ m ≤ h := by omega
    obtain ⟨⟨d, hmd, hdh, hrun⟩, hmax, hzero, hpos⟩ := hr.2 hsome
    obtain ⟨⟨d', hmd', hdh', hrun'⟩, hmax', hzero', hpos'⟩ := hr'.2 hsome
    have hlen : r.1 = r'.1 := Nat.le_antisymm (hmax' d r.1 hmd hdh hrun) (hmax d' r'.1 hmd' hdh' hrun')
    have hdisp : r.2 = r'.2 := by
      by_cases h1 : 1 ≤ r.1
      · obtain ⟨ha, hb, hc, hfar⟩ := hpos h1
        obtain ⟨ha', hb', hc', hfar'⟩ := hpos' (hlen ▸ h1)
        exact Nat.le_antisymm (hfar' _ ha hb (hlen ▸ hc)) (hfar _ ha' hb' (hlen ▸ hc'))
      · rw [hzero (by omega), hzero' (by omega)]
    exact Prod.ext hlen hdisp

/-- A FIND_MATCH accepted under a legal cap has its whole answer in the result registers. -/
theorem matchRegisters_eq_commandMatch {hist look : Memory} {m : Nat} {s t : State} (hlegal : s.cfg.Legal)
    (h : exec (.findMatch hist look m) s = .next t) :
    1 ≤ m ∧ (t.mfLen.toNat, t.mfDisp.toNat) = commandMatch hist look m := by
  obtain ⟨-, hok, rfl⟩ := execFindMatch_eq_next h
  obtain ⟨hhist, hlook, hm, -⟩ := findMatchOperandsOk_iff.1 hok
  obtain ⟨hlen, hdisp, -⟩ := findMatch_bounds (viewOf hist look) hist.size look.size m hm
  have hmax : s.cfg.maxMatch ≤ 0x10110 := hlegal.2
  refine ⟨hm, Prod.ext ?_ ?_⟩
  · rw [commandMatch, succeed_mfLen, BitVec.toNat_ofNat]
    exact Nat.mod_eq_of_lt (by omega)
  · rw [commandMatch, succeed_mfDisp, BitVec.toNat_ofNat]
    exact Nat.mod_eq_of_lt (by omega)

end Sys2Proof.Machine

namespace Sys2Proof

open Machine

/-- Settles O15: the finder's answer meets the closed form, and the closed form has one result. -/
theorem closedFormDeterminesTheMatch : Obligations.ClosedFormDeterminesTheMatch := by
  unfold Obligations.ClosedFormDeterminesTheMatch
  intro w h a m r hm
  have hbest := findMatch_isBestMatch w h a hm
  exact ⟨fun hr => IsBestMatch.unique hr hbest, fun hr => hr ▸ hbest⟩

/-- Settles O14: the registers hold the finder's answer, which is the closed form's and within its operands. -/
theorem findMatchLeavesTheBestMatch : Obligations.FindMatchLeavesTheBestMatch := by
  unfold Obligations.FindMatchLeavesTheBestMatch
  intro hist look m s t hlegal h
  obtain ⟨hm, hregs⟩ := matchRegisters_eq_commandMatch hlegal h
  have hbest := findMatch_isBestMatch (viewOf hist look) hist.size look.size hm
  obtain ⟨hlen, hdisp, hzero, hpos⟩ := findMatch_bounds (viewOf hist look) hist.size look.size m hm
  rw [← commandMatch, ← hregs] at hbest hlen hdisp hzero hpos
  refine ⟨hbest, hlen, hdisp, hzero, fun h0 => ?_⟩
  by_contra hne
  have hle := (hpos (Nat.one_le_iff_ne_zero.2 hne)).1
  rw [h0] at hle
  omega

/-- Settles O16: the two strings agree byte for byte, and the finder reads nothing else. -/
theorem packerQueryIsFindMatchOnTheViews : Obligations.PackerQueryIsFindMatchOnTheViews := by
  unfold Obligations.PackerQueryIsFindMatchOnTheViews
  intro s u hist look hlegal hcursor hlen hhist hlook hhistBytes hlookBytes hquiet hcfg
  have hexec : ∃ t, exec (.findMatch hist look 1) u = .next t := by
    have hok : findMatchOperandsOk u.cfg hist look 1 = true :=
      findMatchOperandsOk_iff.2 ⟨by omega, by rw [hcfg]; omega, le_rfl, by decide⟩
    exact ⟨_, (execFindMatch_of_quiet hquiet hist look 1).trans (if_pos hok)⟩
  have hviews : ∀ j < hist.size + look.size, viewOf hist look j = inputView s j := by
    intro j hj
    unfold viewOf inputView historyStart window
    split
    · have hbyte := hhistBytes j ‹_›
      rw [Memory.read?_eq_some.2 ⟨‹_›, rfl⟩] at hbyte
      exact (Memory.read?_eq_some.1 hbyte.symm).2.symm
    · have hbyte := hlookBytes (j - hist.size) (by omega)
      rw [Memory.read?_eq_some.2 ⟨by omega, rfl⟩,
        show s.cursor.toNat + (j - hist.size) = s.cursor.toNat - 4096 + j by omega] at hbyte
      exact (Memory.read?_eq_some.1 hbyte.symm).2.symm
  obtain ⟨t, h⟩ := hexec
  refine ⟨t, h, ?_⟩
  rw [(matchRegisters_eq_commandMatch (hcfg ▸ hlegal) h).2, commandMatch, findMatch_congr le_rfl hviews, hhist, hlook]
  rfl

end Sys2Proof
end

section
/-! What the instructions leave unchanged (spec/20_memory.md, 41_token_packer.md). -/
namespace Sys2Proof.Machine

/-! The micro-operations of a block -/

/-- A serializer that goes on appends some bytes to the block and does nothing else. -/
theorem exec_serializer_eq_next {i : Instr} {l d : Nat} {s t : State}
    (hi : i ∈ [.encShort l d, .encMedium l d, .encLong l d]) (h : exec i s = .next t) :
    ∃ bytes, t = { s with blkBytes := s.blkBytes ++ bytes } := by
  simp only [List.mem_cons, List.not_mem_nil, or_false] at hi
  obtain rfl | rfl | rfl := hi
  · exact ⟨_, (serialize_eq_next h).2⟩
  · exact ⟨_, (serialize_eq_next h).2⟩
  · exact ⟨_, (serialize_eq_next h).2⟩

/-- A micro-operation of a block that goes on appends some bytes to the block, and writes at most its flag byte and the
cursor besides. -/
theorem exec_blockMicroOperation_eq_next {i : Instr} {l d : Nat} {b : Byte} {s t : State}
    (hi : i ∈ [.encShort l d, .encMedium l d, .encLong l d, .tokLiteral b, .tokMatch l d]) (h : exec i s = .next t) :
    ∃ bytes flag cursor,
      t = { s with blkBytes := s.blkBytes ++ bytes, blkFlag := flag, cursor := cursor } := by
  rw [show [Instr.encShort l d, .encMedium l d, .encLong l d, .tokLiteral b, .tokMatch l d] =
    [.encShort l d, .encMedium l d, .encLong l d] ++ [.tokLiteral b, .tokMatch l d] from rfl, List.mem_append] at hi
  obtain hi | hi := hi
  · obtain ⟨bytes, rfl⟩ := exec_serializer_eq_next hi h
    exact ⟨bytes, s.blkFlag, s.cursor, rfl⟩
  · simp only [List.mem_cons, List.not_mem_nil, or_false] at hi
    obtain rfl | rfl := hi
    · obtain ⟨-, -, rfl⟩ := execTokLiteral_eq_next h
      exact ⟨_, s.blkFlag, _, rfl⟩
    · obtain ⟨-, -, rfl⟩ := execTokMatch_eq_next h
      exact ⟨_, _, _, rfl⟩

/-- A match that goes on changes no flag bit but its slot's. -/
theorem execTokMatch_blkFlag {l d : Nat} {s t : State} (h : execTokMatch l d s = .next t) {k : Nat} (hk : k < 8)
    (hne : k ≠ 7 - s.blkCount.toNat) : t.blkFlag.getLsbD k = s.blkFlag.getLsbD k := by
  obtain ⟨-, hslot, rfl⟩ := execTokMatch_eq_next h
  rw [markMatch_getLsbD hslot hk, decide_eq_false hne, Bool.or_false]

/-! The appends to `OUT` -/

/-- The append happens, or the operation ends (R172). -/
theorem outAppend_cases (bytes : List Byte) (s : State) :
    outAppend bytes s = { s with out := s.out ++ bytes } ∨
      (fits s.cfg (s.out.length + bytes.length) = false ∧ outAppend bytes s = failWith .allocFailure s) := by
  cases h : hasRoom bytes s with
  | true => exact .inl (outAppend_of_room h)
  | false => exact .inr ⟨h, outAppend_of_no_room h⟩

/-- Every offset below the end reads as before, and from the end on stand the bytes appended. -/
theorem append_reads (out bytes : List Byte) :
    (∀ a < out.length, (out ++ bytes)[a]? = out[a]?) ∧
      (∀ k < bytes.length, (out ++ bytes)[out.length + k]? = bytes[k]?) ∧
      (out ++ bytes).length = out.length + bytes.length := by
  refine ⟨fun a ha => List.getElem?_append_left ha, fun k _ => ?_, List.length_append⟩
  rw [List.getElem?_append_right (Nat.le_add_right _ _), Nat.add_sub_cancel_left]

end Sys2Proof.Machine

namespace Sys2Proof

open Machine

/-- Settles O19: the record of what a micro-operation of a block writes leaves every field out that is to stay. -/
theorem blockMicroOperationsLeaveTheRest : Obligations.BlockMicroOperationsLeaveTheRest := by
  unfold Obligations.BlockMicroOperationsLeaveTheRest
  refine fun i s t h => ⟨fun l d b hi => ?_, fun l d b hi => ?_, fun l d hi => ?_, fun l d hi k hk hne => ?_⟩
  · obtain ⟨bytes, flag, cursor, rfl⟩ := exec_blockMicroOperation_eq_next hi h
    exact ⟨rfl, rfl, rfl, rfl, rfl, rfl, rfl, rfl, fun _ => rfl, fun _ => rfl,
      fun k hk => List.getElem?_append_left hk⟩
  · rw [show [Instr.encShort l d, .encMedium l d, .encLong l d, .tokLiteral b] =
      [.encShort l d, .encMedium l d, .encLong l d] ++ [.tokLiteral b] from rfl, List.mem_append,
      List.mem_singleton] at hi
    obtain hi | rfl := hi
    · obtain ⟨bytes, rfl⟩ := exec_serializer_eq_next hi h
      rfl
    · obtain ⟨-, -, rfl⟩ := execTokLiteral_eq_next h
      rfl
  · obtain ⟨bytes, rfl⟩ := exec_serializer_eq_next hi h
    rfl
  · subst hi
    exact execTokMatch_blkFlag h hk hne

/-- Settles O20: HDR and BLK_FLUSH are one append each, of the header's or the block's bytes, which happens or ends the
operation; BLK_FLUSH of an empty block appends nothing. -/
theorem outputMicroOperationsAppendOnly : Obligations.OutputMicroOperationsAppendOnly := by
  unfold Obligations.OutputMicroOperationsAppendOnly
  rintro i s t bytes h (⟨n, rfl, rfl⟩ | ⟨f, rfl, rfl⟩)
  · obtain rfl : outAppend (headerBytes s.cfg n.toNat) s = t := by injection h
    obtain happend | ⟨hno, happend⟩ := outAppend_cases (headerBytes s.cfg n.toNat) s
    · obtain ⟨hbelow, hnew, hlength⟩ := append_reads s.out (headerBytes s.cfg n.toNat)
      rw [happend]
      exact ⟨.inl ⟨hbelow, hnew, hlength, rfl, rfl⟩, rfl, rfl, rfl, rfl, rfl, rfl, fun _ => rfl,
        fun _ _ => ⟨rfl, rfl, rfl⟩⟩
    · rw [happend]
      exact ⟨.inr ⟨hno, rfl, rfl, rfl, rfl, rfl, rfl⟩, rfl, rfl, rfl, rfl, rfl, rfl, fun _ => rfl,
        fun _ _ => ⟨rfl, rfl, rfl⟩⟩
  · obtain ⟨-, ⟨hempty, rfl⟩ | ⟨hfull, rfl⟩⟩ := execBlkFlush_eq_next h
    · rw [if_pos hempty]
      exact ⟨.inl ⟨fun _ _ => rfl, fun _ hk => absurd hk (Nat.not_lt_zero _), rfl, rfl, rfl⟩, rfl, rfl, rfl, rfl, rfl,
        rfl, fun _ => rfl, fun _ hn => by cases hn⟩
    · rw [if_neg hfull]
      obtain ⟨-, hflush⟩ | ⟨hno, hflush⟩ := flush_cases s
      · obtain ⟨hbelow, hnew, hlength⟩ := append_reads s.out (blockImage s)
        rw [hflush]
        exact ⟨.inl ⟨hbelow, hnew, hlength, rfl, rfl⟩, rfl, rfl, rfl, rfl, rfl, rfl, fun _ => rfl,
          fun _ hn => by cases hn⟩
      · rw [hflush]
        exact ⟨.inr ⟨hno, rfl, rfl, rfl, rfl, rfl, rfl⟩, rfl, rfl, rfl, rfl, rfl, rfl, fun _ => rfl,
          fun _ hn => by cases hn⟩

/-- Settles O21: FIND_MATCH writes the result registers, `status` and `phase`; START writes none of the result
registers, and takes the operand unless it is too large. -/
theorem commandsLeaveTheRest : Obligations.CommandsLeaveTheRest := by
  unfold Obligations.CommandsLeaveTheRest
  refine fun s t => ⟨fun hist look m h => ?_, fun input n h => ?_⟩
  · obtain ⟨-, -, rfl⟩ := execFindMatch_eq_next h
    exact ⟨fun _ => rfl, rfl, rfl, rfl, rfl, rfl, fun _ => rfl, rfl, rfl⟩
  · obtain ⟨-, -, rfl⟩ := execEncode_eq_next h
    obtain ⟨hsize, hstart⟩ | ⟨hsize, -, hstart⟩ | ⟨hsize, -, hstart⟩ := startEncode_cases input n s
    · rw [hstart]
      exact ⟨rfl, rfl, rfl, rfl, fun _ => (if_neg (Nat.not_le.2 hsize)).symm⟩
    · rw [hstart]
      exact ⟨rfl, rfl, rfl, rfl, fun _ => (if_pos hsize).symm⟩
    · rw [hstart]
      exact ⟨rfl, rfl, rfl, rfl, fun _ => (if_pos hsize).symm⟩

end Sys2Proof
end

section
/-! What a step does with the host's moves, and what the host reads (spec/60_exceptions.md, 70_reset_and_hazards.md). -/
namespace Sys2Proof.Machine

/-- A move without `wait` comes now. -/
theorem step_of_move_now {s : State} {e : HostEvent} {rest : List HostMove} (hh : s.host = ⟨false, e⟩ :: rest) :
    step s = hostEvent e { s with host := rest } :=
  step_of_move hh fun hw => by cases hw

/-- What decodes at the command port is what the port runs. -/
theorem issue_of_decode {cfg : Config} {c : HostCommand} {i : Instr} (h : decode cfg (.command c) = .ok (i, []))
    (s : State) : issue c s = exec i s := by
  rw [decode] at h
  split at h
  · rename_i j hj
    cases h
    rw [issue, hj]
  · cases h

theorem sequencerStep_of_quiet {s : State} (hp : s.phase ≠ .run) : sequencerStep s = .next s := by
  unfold sequencerStep
  split
  · rfl
  · rfl
  · exact absurd ‹_› hp

/-! FINISH (R134) -/

theorem finishStep_of_empty {s : State} (hp : s.phase = .run) (h : s.blkCount = 0) :
    finishStep s = .next (succeed s) := by
  rw [finishStep, execBlkFlush_of_empty h]
  exact if_pos hp

theorem finishStep_of_nonempty {s : State} (h : s.blkCount ≠ 0) :
    finishStep s = if (flush s).phase = .run then .next (succeed (flush s)) else .next (flush s) := by
  rw [finishStep, execBlkFlush_of_nonempty h]
  rfl

end Sys2Proof.Machine

namespace Sys2Proof

open Machine

/-- Settles O22: the command comes now, and the port runs what it decodes to. -/
theorem stepRunsTheIssuedInstruction : Obligations.StepRunsTheIssuedInstruction := by
  unfold Obligations.StepRunsTheIssuedInstruction
  intro s wait c rest i hhost hwait hdecode
  rw [step_of_move hhost hwait]
  exact issue_of_decode hdecode _

/-- Settles O26: the step is FINISH, which completes what its flush leaves in RUN. -/
theorem finishStepCompletes : Obligations.FinishStepCompletes := by
  unfold Obligations.FinishStepCompletes
  intro s hrun hsilent hend
  have hstep : step s = finishStep s := by
    rw [step_of_silent hrun hsilent, sequencerStep_finish hrun (congrArg BitVec.toNat hend)]
  refine ⟨fun hempty => hstep.trans (finishStep_of_empty hrun hempty), fun hcount => ?_⟩
  rw [hstep, finishStep_of_nonempty hcount]
  split_ifs with hphase hfits hfits
  · rw [flush_of_fits hfits]
    rfl
  · rw [flush_of_not_fits hfits] at hphase
    cases hphase
  · rw [flush_of_fits hfits] at hphase
    exact absurd hrun hphase
  · rw [flush_of_not_fits hfits]

/-- Settles O27: with no move the step is the block's, and outside RUN it waits. -/
theorem quietBlockKeepsItsState : Obligations.QuietBlockKeepsItsState := by
  unfold Obligations.QuietBlockKeepsItsState
  intro s hhost hquiet
  rw [step, nextStep, hhost]
  exact sequencerStep_of_quiet hquiet

/-- Settles O28: a reset that comes now is taken in any phase. -/
theorem resetTakesEffectInAnyPhase : Obligations.ResetTakesEffectInAnyPhase := by
  unfold Obligations.ResetTakesEffectInAnyPhase
  exact fun s rest hhost => step_of_move_now hhost

/-- Settles O30: the table, row by row. -/
theorem statusCodesAreTheTables : Obligations.StatusCodesAreTheTables := by
  unfold Obligations.StatusCodesAreTheTables
  exact ⟨rfl, rfl, rfl, rfl⟩

/-- Settles O32: the two checks of a configure move, the phase first. -/
theorem configurationChangesOnlyBetweenOperations : Obligations.ConfigurationChangesOnlyBetweenOperations := by
  unfold Obligations.ConfigurationChangesOnlyBetweenOperations
  intro s cfg rest hhost
  have hstep : step s = configure cfg { s with host := rest } := step_of_move_now hhost
  rw [hstep]
  exact ⟨fun hquiet hlegal => (if_neg hquiet).trans (if_pos hlegal), fun hrun => if_pos hrun,
    fun hquiet hillegal => (if_neg hquiet).trans (if_neg hillegal)⟩

/-- Settles O33: each read is guarded by the phase, that of `OUT` by the status too. -/
theorem hostReadsResultsOnlyInDone : Obligations.HostReadsResultsOnlyInDone := by
  unfold Obligations.HostReadsResultsOnlyInDone
  refine fun s => ⟨fun bytes => ?_, fun r => ?_, fun hp => if_neg hp⟩
  · unfold hostReadsOut
    split
    · rename_i hdone
      simp only [Option.some.injEq, hdone, true_and, eq_comm]
    · rename_i hdone
      exact ⟨fun h => (by cases h), fun ⟨hp, hs, _⟩ => absurd ⟨hp, hs⟩ hdone⟩
  · unfold hostReadsMatch
    split
    · rename_i hdone
      simp only [Option.some.injEq, hdone, true_and, eq_comm]
    · rename_i hdone
      exact ⟨fun h => (by cases h), fun ⟨hp, _⟩ => absurd hp hdone⟩

end Sys2Proof
end

section
/-! What a step of the whole machine leaves unchanged (spec/10_state.md). -/
namespace Sys2Proof.Machine

/-- What a step of the running block leaves: the registers of the operation and of the host, and `status` until the
operation ends. -/
structure RunningFrame (s t : State) : Prop where
  cfg : t.cfg = s.cfg
  input : t.input = s.input
  host : t.host = s.host
  len : t.len = s.len
  mfLen : t.mfLen = s.mfLen
  mfDisp : t.mfDisp = s.mfDisp
  goesOnOrEnds : (t.phase = s.phase ∧ t.status = s.status) ∨ t.phase = .done

/-- A token writes the block's registers and the cursor only. -/
theorem emitToken_eq_next {s t : State} (h : emitToken s = .next t) :
    ∃ bytes flag cursor count, t = { s with
      blkBytes := s.blkBytes ++ bytes, blkFlag := flag, cursor := cursor, blkCount := count } := by
  obtain ⟨-, -, ⟨-, rfl⟩ | ⟨-, -, rfl⟩⟩ := emitToken_cases h
  · exact ⟨_, s.blkFlag, _, _, rfl⟩
  · exact ⟨_, _, _, _, rfl⟩

theorem sequencerStep_frame {s t : State} (hp : s.phase = .run) (h : sequencerStep s = .next t) :
    RunningFrame s t := by
  obtain ⟨-, -, h⟩ | ⟨-, -, -, h⟩ | ⟨-, -, -, rfl⟩ | ⟨-, -, rfl⟩ | ⟨-, -, -, rfl⟩ | ⟨-, -, -, rfl⟩ :=
    running_cases hp h
  · obtain ⟨bytes, flag, cursor, count, rfl⟩ := emitToken_eq_next h
    exact ⟨rfl, rfl, rfl, rfl, rfl, rfl, .inl ⟨rfl, rfl⟩⟩
  · obtain ⟨bytes, flag, cursor, count, rfl⟩ := emitToken_eq_next h
    exact ⟨rfl, rfl, rfl, rfl, rfl, rfl, .inl ⟨rfl, rfl⟩⟩
  · exact ⟨rfl, rfl, rfl, rfl, rfl, rfl, .inr rfl⟩
  · exact ⟨rfl, rfl, rfl, rfl, rfl, rfl, .inr rfl⟩
  · exact ⟨rfl, rfl, rfl, rfl, rfl, rfl, .inr rfl⟩
  · exact ⟨rfl, rfl, rfl, rfl, rfl, rfl, .inr rfl⟩

/-- START leaves the result registers, the configuration and the host's moves, and `status` until it ends the
operation. -/
theorem startEncode_frame (input : Memory) (n : Nat) (s : State) :
    (startEncode input n s).cfg = s.cfg ∧ (startEncode input n s).host = s.host ∧
      (startEncode input n s).mfLen = s.mfLen ∧ (startEncode input n s).mfDisp = s.mfDisp ∧
      ((startEncode input n s).status = s.status ∨ (startEncode input n s).phase = .done) := by
  obtain ⟨-, h⟩ | ⟨-, -, h⟩ | ⟨-, -, h⟩ := startEncode_cases input n s
  · rw [h]
    exact ⟨rfl, rfl, rfl, rfl, .inr rfl⟩
  · rw [h]
    exact ⟨rfl, rfl, rfl, rfl, .inl rfl⟩
  · rw [h]
    exact ⟨rfl, rfl, rfl, rfl, .inr rfl⟩

theorem flush_cfg (s : State) : (flush s).cfg = s.cfg := by
  obtain ⟨-, h⟩ | ⟨-, h⟩ := flush_cases s
  · rw [h]
    rfl
  · rw [h]
    rfl

theorem outAppend_cfg (bytes : List Byte) (s : State) : (outAppend bytes s).cfg = s.cfg := by
  obtain h | ⟨-, h⟩ := outAppend_cases bytes s
  · rw [h]
  · rw [h]
    rfl

/-- The configuration is an argument of every instruction and a result of none (R20). -/
theorem exec_cfg {i : Instr} {s t : State} (h : exec i s = .next t) : t.cfg = s.cfg := by
  cases i with
  | encode input n =>
    obtain ⟨-, -, rfl⟩ := execEncode_eq_next h
    exact (startEncode_frame input n s).1
  | findMatch hist look m =>
    obtain ⟨-, -, rfl⟩ := execFindMatch_eq_next h
    rfl
  | hdr n =>
    cases h
    exact outAppend_cfg _ s
  | blkFlush f =>
    obtain ⟨-, ⟨-, rfl⟩ | ⟨-, rfl⟩⟩ := execBlkFlush_eq_next h
    · rfl
    · exact flush_cfg s
  | tokLiteral b =>
    obtain ⟨-, -, rfl⟩ := execTokLiteral_eq_next h
    rfl
  | tokMatch l d =>
    obtain ⟨-, -, rfl⟩ := execTokMatch_eq_next h
    rfl
  | encShort l d =>
    rw [(serialize_eq_next h).2]
  | encMedium l d =>
    rw [(serialize_eq_next h).2]
  | encLong l d =>
    rw [(serialize_eq_next h).2]

end Sys2Proof.Machine

namespace Sys2Proof

open Machine

/-- Settles O34: of the cases of a step, only the configure move writes the configuration. -/
theorem noOperationChangesTheConfiguration : Obligations.NoOperationChangesTheConfiguration := by
  unfold Obligations.NoOperationChangesTheConfiguration
  refine ⟨fun i s t h => exec_cfg h, fun s t h hne => ?_⟩
  obtain ⟨-, -, rfl⟩ | ⟨hrun, -, hstep⟩ | ⟨w, c, rest, -, -, -, -, rfl⟩ | ⟨w, c, rest, -, -, -, -, rfl⟩ |
    ⟨w, rest, -, rfl⟩ | ⟨w, cfg, rest, hhost, hquiet, -, rfl⟩ := step_cases h
  · exact absurd rfl hne
  · exact absurd (sequencerStep_frame hrun hstep).cfg hne
  · exact absurd (startEncode_frame c.input c.n { s with host := rest }).1 hne
  · exact absurd rfl hne
  · exact absurd rfl hne
  · exact ⟨w, cfg, rest, hhost, rfl, hquiet⟩

/-- Settles O35: a step that goes on, waits or configures leaves `status`; any other ends an operation or resets. -/
theorem statusIsWrittenOnlyOnCompletion : Obligations.StatusIsWrittenOnlyOnCompletion := by
  unfold Obligations.StatusIsWrittenOnlyOnCompletion
  intro s t h hne
  obtain ⟨-, -, rfl⟩ | ⟨hrun, -, hstep⟩ | ⟨w, c, rest, -, -, -, -, rfl⟩ | ⟨w, c, rest, -, -, -, -, rfl⟩ |
    ⟨w, rest, hhost, rfl⟩ | ⟨w, cfg, rest, -, -, -, rfl⟩ := step_cases h
  · exact absurd rfl hne
  · obtain ⟨-, hstatus⟩ | hdone := (sequencerStep_frame hrun hstep).goesOnOrEnds
    · exact absurd hstatus hne
    · exact .inl hdone
  · obtain ⟨-, -, -, -, hstatus | hdone⟩ := startEncode_frame c.input c.n { s with host := rest }
    · exact absurd hstatus hne
    · exact .inl hdone
  · exact .inl rfl
  · exact .inr ⟨w, rest, hhost, rfl⟩
  · exact absurd rfl hne

/-- Settles O36: the block's own steps, START and a configure move leave the result registers. -/
theorem onlyFindMatchWritesTheMatchRegisters : Obligations.OnlyFindMatchWritesTheMatchRegisters := by
  unfold Obligations.OnlyFindMatchWritesTheMatchRegisters
  intro s t h hne
  rw [← not_and_or] at hne
  obtain ⟨-, -, rfl⟩ | ⟨hrun, -, hstep⟩ | ⟨w, c, rest, -, -, -, -, rfl⟩ | ⟨w, c, rest, hhost, -, hcode, -, rfl⟩ |
    ⟨w, rest, hhost, rfl⟩ | ⟨w, cfg, rest, -, -, -, rfl⟩ := step_cases h
  · exact absurd ⟨rfl, rfl⟩ hne
  · have hframe := sequencerStep_frame hrun hstep
    exact absurd ⟨hframe.mfLen, hframe.mfDisp⟩ hne
  · obtain ⟨-, -, hlen, hdisp, -⟩ := startEncode_frame c.input c.n { s with host := rest }
    exact absurd ⟨hlen, hdisp⟩ hne
  · exact .inl ⟨w, c, rest, hhost, hcode, rfl⟩
  · exact .inr ⟨w, rest, hhost⟩
  · exact absurd ⟨rfl, rfl⟩ hne

/-- Settles O37: in RUN a step is the block's own, or a reset, since every other move is refused there. -/
theorem runningBlockNeverWritesTheInput : Obligations.RunningBlockNeverWritesTheInput := by
  unfold Obligations.RunningBlockNeverWritesTheInput
  intro s t h hrun
  obtain ⟨hquiet, -⟩ | ⟨-, -, hstep⟩ | ⟨w, c, rest, -, hquiet, -⟩ | ⟨w, c, rest, -, hquiet, -⟩ | ⟨w, rest, hhost, -⟩ |
    ⟨w, cfg, rest, -, hquiet, -⟩ := step_cases h
  · exact absurd hrun hquiet
  · exact .inr fun a => by rw [(sequencerStep_frame hrun hstep).input]
  · exact absurd hrun hquiet
  · exact absurd hrun hquiet
  · exact .inl ⟨w, rest, hhost⟩
  · exact absurd hrun hquiet

/-- Settles O38: a token writes nothing to `OUT`, and a flush one flag byte and at most 32 bytes of tokens. -/
theorem runningBlockOnlyAppendsToOut : Obligations.RunningBlockOnlyAppendsToOut := by
  unfold Obligations.RunningBlockOnlyAppendsToOut
  intro s t hrun hsilent hbytes h
  rw [step_of_silent hrun hsilent] at h
  have himage : (blockImage s).length ≤ 33 := by
    rw [blockImage_length]
    omega
  obtain ⟨-, -, h⟩ | ⟨-, -, -, h⟩ | ⟨-, -, -, rfl⟩ | ⟨-, -, rfl⟩ | ⟨-, -, -, rfl⟩ | ⟨-, -, -, rfl⟩ :=
    running_cases hrun h
  · obtain ⟨bytes, flag, cursor, count, rfl⟩ := emitToken_eq_next h
    exact .inl ⟨[], (List.append_nil _).symm, Nat.zero_le _⟩
  · obtain ⟨bytes, flag, cursor, count, rfl⟩ := emitToken_eq_next h
    exact .inl ⟨blockImage s, rfl, himage⟩
  · exact .inr ⟨rfl, rfl, rfl⟩
  · exact .inl ⟨[], (List.append_nil _).symm, Nat.zero_le _⟩
  · exact .inl ⟨blockImage s, rfl, himage⟩
  · exact .inr ⟨rfl, rfl, rfl⟩

end Sys2Proof
end

section
/-! The running block on its input's parse: one step of it, and the invariant (spec/10_state.md R36,
41_token_packer.md R121 to R139). -/
namespace Sys2Proof

/-- The micro-operation that emits a token (R127). -/
def Token.instr : Token → Instr
  | .literal b => .tokLiteral b
  | .copy l d => .tokMatch l d

theorem tokenAt_eq_literal {cfg : Config} {input : Memory} {c : Nat} {b : Byte} (h : tokenAt cfg input c = .literal b) :
    b = input.read c := by
  unfold tokenAt at h
  split at h
  · cases h
    rfl
  · cases h

end Sys2Proof

namespace Sys2Proof.Machine

/-! One step of the running block, as one equation -/

/-- The state after a flush that fits. -/
def flushedState (s : State) : State := clearBlock { s with out := s.out ++ blockImage s }

theorem blkCount_ne_zero_of_full {s : State} (hfull : s.blkCount.toNat = slots) : s.blkCount ≠ 0 := by
  intro h0
  rw [h0] at hfull
  exact absurd hfull (by decide)

/-- TOKEN below the end of the input, behind a flush where the block is full; FINISH at the end (R121, R125, R134). -/
theorem sequencerStep_running {s : State} (hp : s.phase = .run) : sequencerStep s =
    if s.cursor.toNat < s.len.toNat then
      if s.blkCount.toNat = slots then
        if hasRoom (blockImage s) s then emitToken (flushedState s) else .next (failWith .allocFailure s)
      else emitToken s
    else if s.cursor.toNat = s.len.toNat then
      if s.blkCount = 0 then .next (succeed s)
      else if hasRoom (blockImage s) s then .next (succeed (flushedState s)) else .next (failWith .allocFailure s)
    else .fault .noStepEnabled := by
  split_ifs with hlt hfull hroom hend hempty hroom
  · rw [sequencerStep_token hp hlt, tokenStep, flushIfFull, if_pos hfull,
      execBlkFlush_of_nonempty (blkCount_ne_zero_of_full hfull), flush_of_room hroom]
    exact if_pos hp
  · rw [sequencerStep_token hp hlt, tokenStep, flushIfFull, if_pos hfull,
      execBlkFlush_of_nonempty (blkCount_ne_zero_of_full hfull),
      flush_of_no_room (Bool.not_eq_true _ ▸ hroom)]
    rfl
  · rw [sequencerStep_token hp hlt, tokenStep_of_free hp hfull]
  · rw [sequencerStep_finish hp hend, finishStep_of_empty hp hempty]
  · rw [sequencerStep_finish hp hend, finishStep_of_nonempty hempty, flush_of_room hroom]
    exact if_pos hp
  · rw [sequencerStep_finish hp hend, finishStep_of_nonempty hempty,
      flush_of_no_room (Bool.not_eq_true _ ▸ hroom)]
    rfl
  · unfold sequencerStep
    rw [hp]
    exact (if_neg hlt).trans (if_neg hend)

/-! The token a running block emits -/

/-- The token of the greedy parse at the cursor. -/
def nextToken (s : State) : Token := tokenAt s.cfg s.input s.cursor.toNat

/-- What a TOKEN step does to the registers when it emits `tok` (R128, R129, R133). -/
def emitted (tok : Token) (s : State) : State :=
  { s with
    blkBytes := s.blkBytes ++ tok.bytes
    blkFlag := if tok.isMatch then markMatch s.blkFlag s.blkCount.toNat else s.blkFlag
    cursor := s.cursor + BitVec.ofNat 24 tok.consumed
    blkCount := s.blkCount + 1 }

/-- On an operand of `len` bytes a TOKEN step selects the parse's token. -/
theorem selectToken_eq_nextToken {s : State} (h : s.len.toNat = s.input.size) :
    selectToken s = (nextToken s).instr := by
  rw [selectToken, packerMatch_eq h, nextToken, tokenAt]
  split <;> rfl

section
variable {s : State} {flushed block : List Token} (h : s.RunsWith flushed block)
include h

theorem State.RunsWith.nextToken_valid (hlt : s.cursor.toNat < s.len.toNat) :
    (nextToken s).Valid s.cfg s.cursor.toNat s.len.toNat := by
  rw [h.lenIsSize] at hlt ⊢
  exact tokenAt_valid s.cfg s.input _ hlt

/-- A block with a free slot has room for any token. -/
theorem State.RunsWith.room (hfree : block.length < slots) {bytes : List Byte} (hbytes : bytes.length ≤ 4) :
    s.blkBytes.length + bytes.length ≤ blockBufferSize := by
  have := tokenBytes_length_le block
  rw [h.bytesAre]
  unfold slots at hfree
  unfold blockBufferSize
  omega

/-- With a free slot the token's micro-operation goes on. -/
theorem State.RunsWith.emitToken_eq (hlegal : s.cfg.Legal) (hlt : s.cursor.toNat < s.len.toNat)
    (hfree : block.length < slots) : emitToken s = .next (emitted (nextToken s) s) := by
  have hvalid := h.nextToken_valid hlt
  have hslot : s.blkCount.toNat < slots := by rwa [h.countIs]
  have hexec : exec (nextToken s).instr s = .next { s with
      blkBytes := s.blkBytes ++ (nextToken s).bytes
      blkFlag := if (nextToken s).isMatch then markMatch s.blkFlag s.blkCount.toNat else s.blkFlag
      cursor := s.cursor + BitVec.ofNat 24 (nextToken s).consumed } := by
    cases htok : nextToken s with
    | literal b =>
      have hread : readAtCursor s = some b :=
        Memory.read?_eq_some.2 ⟨h.lenIsSize ▸ hlt, (tokenAt_eq_literal htok).symm⟩
      rw [Token.instr, exec, execTokLiteral_of_read hread, if_pos rfl, if_pos hslot,
        blkAppend_of_room (h.room (bytes := [b]) hfree (by decide : 1 ≤ 4)), andThen_next]
      rfl
    | copy l d =>
      rw [htok] at hvalid
      obtain ⟨hl, hmax, hend, hd, hcursor, hd'⟩ := hvalid
      have hlTier : l ≤ 0x10110 := hmax.trans hlegal.2
      rw [Token.instr, exec, execTokMatch_of_ok
        (tokMatchOperandsOk_iff.2 ⟨hl, hmax, hlTier, hend, hd, hcursor, hd'⟩) hslot
        (h.room hfree (matchBytes_length_le l d)), ← matchWordBytes_eq_matchBytes hlTier hd']
      rfl
  rw [emitToken, if_pos (queryInRange_of_le hlt h.lenIsSize.le), selectToken_eq_nextToken h.lenIsSize, hexec]
  rfl

theorem State.RunsWith.emitted_cursor (hlt : s.cursor.toNat < s.len.toNat) :
    (emitted (nextToken s) s).cursor.toNat = s.cursor.toNat + (nextToken s).consumed := by
  have hend := (valid_consumed (h.nextToken_valid hlt)).2
  have hlen := s.len.isLt
  change (s.cursor + BitVec.ofNat 24 (nextToken s).consumed).toNat = _
  rw [← cursor_add, BitVec.toNat_ofNat]
  exact Nat.mod_eq_of_lt (by omega)

theorem State.RunsWith.emitted_blkCount (hfree : block.length < slots) (tok : Token) :
    (emitted tok s).blkCount.toNat = block.length + 1 := by
  change (s.blkCount + 1).toNat = _
  unfold slots at hfree
  rw [BitVec.toNat_add, h.countIs]
  exact Nat.mod_eq_of_lt (show block.length + 1 < 16 by omega)

/-- The flag byte follows the block's tokens: only a match sets its slot's bit. -/
theorem State.RunsWith.emitted_blkFlag (hfree : block.length < slots) (tok : Token) :
    (emitted tok s).blkFlag = blockFlag (block ++ [tok]) := by
  cases tok with
  | literal b => exact h.flagIs.trans (blockFlag_literal block b).symm
  | copy l d =>
    rw [blockFlag_copy block l d hfree, ← h.flagIs, ← h.countIs]
    rfl

/-- A TOKEN step adds the parse's token to the block being built. -/
theorem State.RunsWith.emitted (hlt : s.cursor.toNat < s.len.toNat) (hfree : block.length < slots) :
    (emitted (nextToken s) s).RunsWith flushed (block ++ [nextToken s]) where
  lenIsSize := h.lenIsSize
  cursorLe := by
    rw [h.emitted_cursor hlt]
    exact (valid_consumed (h.nextToken_valid hlt)).2
  countLe := by
    rw [h.emitted_blkCount hfree]
    exact hfree
  countIs := by
    rw [h.emitted_blkCount hfree, List.length_append, List.length_singleton]
  flagIs := h.emitted_blkFlag hfree _
  bytesAre := by
    rw [tokenBytes_append, tokenBytes_cons, tokenBytes_nil, List.append_nil, ← h.bytesAre]
    rfl
  outIs := h.outIs
  fullBlocks := h.fullBlocks
  outFits := h.outFits
  cursorIs := by
    rw [h.emitted_cursor hlt, ← List.append_assoc, consumedBy_append, ← h.cursorIs, consumedBy_cons, consumedBy_nil]
    rfl
  parseIs := by
    rw [h.emitted_cursor hlt, ← List.append_assoc, List.append_assoc _ [nextToken s]]
    refine h.parseIs.trans (congrArg _ ?_)
    exact parseFrom_lt s.cfg s.input _ (h.lenIsSize ▸ hlt)

/-! The block's flush -/

/-- What a flush of the block leaves in `OUT`. -/
theorem State.RunsWith.out_append_blockImage (hne : block ≠ []) :
    s.out ++ blockImage s = headerOf s.cfg s.len.toNat ++ blocksOf (flushed ++ block) := by
  have hlength : block.length ≤ slots := h.countIs ▸ h.countLe
  rw [blocksOf_append flushed block h.fullBlocks, blocksOf_one block hne hlength, ← List.append_assoc, ← h.outIs,
    blockImage, h.flagIs, h.bytesAre]
  rfl

/-- A full block's flush leaves an empty block, behind one full block more. -/
theorem State.RunsWith.afterFlush (hfull : block.length = slots) (hroom : hasRoom (blockImage s) s = true) :
    (flushedState s).RunsWith (flushed ++ block) [] where
  lenIsSize := h.lenIsSize
  cursorLe := h.cursorLe
  countLe := Nat.zero_le _
  countIs := rfl
  flagIs := rfl
  bytesAre := rfl
  outIs := h.out_append_blockImage (List.ne_nil_of_length_pos (by rw [hfull]; decide))
  fullBlocks := by
    rw [List.length_append, hfull, Nat.add_mod_right, h.fullBlocks]
  outFits := by
    rw [hasRoom_eq, ← List.length_append] at hroom
    exact hroom
  cursorIs := by
    rw [List.append_nil]
    exact h.cursorIs
  parseIs := by
    rw [List.append_nil]
    exact h.parseIs

/-- At the flush of a full or of the last block, `OUT` and the block are the stream up to the cursor. -/
theorem State.RunsWith.encodedStream_eq (hne : block ≠ [])
    (hwhole : block.length = slots ∨ s.cursor.toNat = s.len.toNat) : encodedStream s.cfg s.input =
      s.out ++ blockImage s ++ blocksOf (parseFrom s.cfg s.input s.cursor.toNat) := by
  rw [encodedStream, h.parseIs, h.out_append_blockImage hne, ← h.lenIsSize, List.append_assoc (headerOf _ _)]
  refine congrArg _ ?_
  obtain hfull | hend := hwhole
  · refine blocksOf_append _ _ ?_
    rw [List.length_append, hfull, Nat.add_mod_right, h.fullBlocks]
  · rw [parseFrom_ge s.cfg s.input _ (by rw [hend, h.lenIsSize]), blocksOf_nil, List.append_nil, List.append_nil]

/-- Where the block does not fit, the stream does not. -/
theorem State.RunsWith.stream_not_fits (hne : block ≠ [])
    (hwhole : block.length = slots ∨ s.cursor.toNat = s.len.toNat) (hroom : ¬hasRoom (blockImage s) s = true) :
    ¬fits s.cfg (encodedStream s.cfg s.input).length = true := by
  refine fun hfits => hroom (fits_mono ?_ hfits)
  rw [h.encodedStream_eq hne hwhole, List.length_append, List.length_append]
  exact Nat.le_add_right _ _

end

/-! What a step of the running block comes to -/

/-- A running block goes on behind its next token, or it has written the whole stream, or the stream does not fit. -/
inductive RunningOutcome (s t : State) : Prop where
  | token (flushed block : List Token) : s.cursor.toNat < s.len.toNat → t.phase = .run → t.RunsWith flushed block →
      t.cursor.toNat = s.cursor.toNat + (nextToken s).consumed →
      t.blkCount.toNat = (if s.blkCount.toNat = 8 then 1 else s.blkCount.toNat + 1) → RunningOutcome s t
  | success : t.phase = .done → t.status = .success → t.out = encodedStream s.cfg s.input →
      fits s.cfg (encodedStream s.cfg s.input).length = true → RunningOutcome s t
  | failure : t.phase = .done → t.status = .allocFailure → t.out = [] →
      ¬fits s.cfg (encodedStream s.cfg s.input).length = true → RunningOutcome s t

/-- A block that runs with the invariant always goes on (R121, R173). -/
theorem State.RunsWith.sequencerStep_outcome {s : State} {flushed block : List Token} (h : s.RunsWith flushed block)
    (hlegal : s.cfg.Legal) (hp : s.phase = .run) : ∃ t, sequencerStep s = .next t ∧ RunningOutcome s t := by
  have hle := h.cursorLe
  have hcount := h.countIs
  have hcountLe : s.blkCount.toNat ≤ 8 := h.countLe
  have hne : s.blkCount ≠ 0 → block ≠ [] := by
    rintro h0 rfl
    exact h0 (BitVec.eq_of_toNat_eq hcount)
  rw [sequencerStep_running hp]
  split_ifs with hlt hfull hroom hend hempty hroom
  · have hlength : block.length = slots := hcount ▸ hfull
    have hflush := h.afterFlush hlength hroom
    refine ⟨_, hflush.emitToken_eq hlegal hlt (by decide), .token _ _ hlt hp (hflush.emitted hlt (by decide))
      (hflush.emitted_cursor hlt) ?_⟩
    rw [hflush.emitted_blkCount (by decide), if_pos hfull]
    rfl
  · have hlength : block.length = slots := hcount ▸ hfull
    exact ⟨_, rfl, .failure rfl rfl rfl
      (h.stream_not_fits (List.ne_nil_of_length_pos (by rw [hlength]; decide)) (.inl hlength) hroom)⟩
  · have hfree : block.length < slots := by
      rw [← hcount]
      exact lt_of_le_of_ne hcountLe hfull
    refine ⟨_, h.emitToken_eq hlegal hlt hfree, .token _ _ hlt hp (h.emitted hlt hfree) (h.emitted_cursor hlt) ?_⟩
    rw [h.emitted_blkCount hfree, if_neg hfull, hcount]
  · have hblock : block = [] := List.eq_nil_of_length_eq_zero (by rw [← hcount, hempty]; rfl)
    subst hblock
    have hstream : s.out = encodedStream s.cfg s.input := by
      rw [encodedStream, h.parseIs, parseFrom_ge s.cfg s.input _ (by rw [hend, h.lenIsSize]), List.append_nil,
        List.append_nil, ← h.lenIsSize]
      exact h.outIs
    exact ⟨_, rfl, .success rfl rfl hstream (hstream ▸ h.outFits)⟩
  · have hstream : s.out ++ blockImage s = encodedStream s.cfg s.input := by
      rw [h.encodedStream_eq (hne hempty) (.inr hend),
        parseFrom_ge s.cfg s.input _ (by rw [hend, h.lenIsSize]), blocksOf_nil, List.append_nil]
    rw [hasRoom_eq, ← List.length_append, hstream] at hroom
    exact ⟨_, rfl, .success rfl rfl hstream hroom⟩
  · exact ⟨_, rfl, .failure rfl rfl rfl (h.stream_not_fits (hne hempty) (.inr hend) hroom)⟩
  · omega

/-! START -/

/-- The header written, nothing else: the block begins its input (R123). -/
theorem runsWith_start (input : Memory) (s : State) (hsize : input.size ≤ maxInput) (hfits : fits s.cfg 4 = true) :
    State.RunsWith { beginEncode input input.size s with
      out := headerBytes s.cfg (BitVec.ofNat 24 input.size).toNat } [] [] := by
  have hlen : (BitVec.ofNat 24 input.size).toNat = input.size := by
    rw [BitVec.toNat_ofNat]
    exact Nat.mod_eq_of_lt (Nat.lt_succ_of_le hsize)
  exact {
    lenIsSize := hlen
    cursorLe := Nat.zero_le _
    countLe := Nat.zero_le _
    countIs := rfl
    flagIs := rfl
    bytesAre := rfl
    outIs := by
      change headerBytes s.cfg (BitVec.ofNat 24 input.size).toNat =
        headerOf s.cfg (BitVec.ofNat 24 input.size).toNat ++ []
      rw [headerBytes_eq_headerOf, hlen, List.append_nil]
    fullBlocks := rfl
    outFits := hfits
    cursorIs := rfl
    parseIs := rfl }

/-! The invariant -/

/-- The operands of the host's moves are in canonical form. -/
abbrev HostWf (host : List HostMove) : Prop :=
  ∀ mv ∈ host, ∀ c, mv.event = .command c → c.input.wf = true ∧ c.hist.wf = true ∧ c.look.wf = true

theorem inv_of_done {t : State} (hlegal : t.cfg.Legal) (hinput : t.input.wf = true) (hhost : HostWf t.host)
    (hdone : t.phase = .done) (hstatus : t.status ≠ .none) (hempty : t.status ≠ .success → t.out = []) : t.Inv where
  cfgLegal := hlegal
  inputWf := hinput
  hostWf := hhost
  idleNone := fun hp => by rw [hdone] at hp; cases hp
  doneSome := fun _ => hstatus
  failedEmpty := fun _ => hempty
  runs := fun hp => by rw [hdone] at hp; cases hp

theorem inv_of_run {t : State} (hlegal : t.cfg.Legal) (hinput : t.input.wf = true) (hhost : HostWf t.host)
    (hrun : t.phase = .run) {flushed block : List Token} (hruns : t.RunsWith flushed block) : t.Inv where
  cfgLegal := hlegal
  inputWf := hinput
  hostWf := hhost
  idleNone := fun hp => by rw [hrun] at hp; cases hp
  doneSome := fun hp => by rw [hrun] at hp; cases hp
  failedEmpty := fun hp => by rw [hrun] at hp; cases hp
  runs := fun _ => ⟨flushed, block, hruns⟩

/-- Reset in any phase, with a legal configuration. -/
theorem inv_applyReset {s : State} (hlegal : s.cfg.Legal) (hhost : HostWf s.host) : (applyReset s).Inv where
  cfgLegal := hlegal
  inputWf := rfl
  hostWf := hhost
  idleNone := fun _ => rfl
  doneSome := fun hp => by cases hp
  failedEmpty := fun hp => by cases hp
  runs := fun hp => by cases hp

theorem inv_startEncode {input : Memory} {s : State} (hlegal : s.cfg.Legal) (hs : s.input.wf = true)
    (hinput : input.wf = true) (hhost : HostWf s.host) : (startEncode input input.size s).Inv := by
  obtain ⟨-, hstart⟩ | ⟨hsize, hfits, hstart⟩ | ⟨-, -, hstart⟩ := startEncode_cases input input.size s
  · rw [hstart]
    exact inv_of_done hlegal hs hhost rfl (by decide : Status.inputTooLarge ≠ .none) fun _ => rfl
  · rw [hstart]
    exact inv_of_run hlegal hinput hhost rfl (runsWith_start input s hsize hfits)
  · rw [hstart]
    exact inv_of_done hlegal hinput hhost rfl (by decide : Status.allocFailure ≠ .none) fun _ => rfl

theorem inv_sequencerStep {s t : State} (h : s.Inv) (hp : s.phase = .run) (hstep : sequencerStep s = .next t) :
    t.Inv := by
  have hframe := sequencerStep_frame hp hstep
  have hlegal : t.cfg.Legal := hframe.cfg ▸ h.cfgLegal
  have hinput : t.input.wf = true := hframe.input ▸ h.inputWf
  have hhost : HostWf t.host := hframe.host ▸ h.hostWf
  obtain ⟨flushed, block, hruns⟩ := h.runs hp
  obtain ⟨t', hstep', houtcome⟩ := hruns.sequencerStep_outcome h.cfgLegal hp
  obtain rfl : t' = t := by
    rw [hstep'] at hstep
    injection hstep
  cases houtcome with
  | token flushed' block' _ hrun hruns' => exact inv_of_run hlegal hinput hhost hrun hruns'
  | success hdone hstatus =>
    exact inv_of_done hlegal hinput hhost hdone (by simp [hstatus]) fun hno => absurd hstatus hno
  | failure hdone hstatus hempty =>
    exact inv_of_done hlegal hinput hhost hdone (by simp [hstatus]) fun _ => hempty

/-! Faults -/

/-- A move of the host is accepted or refused, and never a fault. -/
theorem hostEvent_ne_fault (e : HostEvent) (s : State) (f : Fault) : hostEvent e s ≠ .fault f := by
  cases e with
  | command c =>
    change issue c s ≠ _
    by_cases hlisted : CommandListedForRefusal s c
    · obtain ⟨r, hr⟩ := hlisted.issue_eq_refused
      simp [hr]
    · obtain ⟨t, ht⟩ := (CommandAccepted.of_not_listed hlisted).issue_eq_next
      simp [ht]
  | reset => simp [hostEvent]
  | configure cfg =>
    change configure cfg s ≠ _
    unfold configure
    split
    · simp
    · split <;> simp

/-- A step is the block's own or a move of the host. -/
theorem step_eq_or (s : State) :
    step s = sequencerStep s ∨
      ∃ mv rest, s.host = mv :: rest ∧ step s = hostEvent mv.event { s with host := rest } := by
  unfold step nextStep
  split
  · exact .inl rfl
  · rename_i mv rest hhost
    split
    · exact .inl rfl
    · exact .inr ⟨mv, rest, hhost, rfl⟩

end Sys2Proof.Machine

namespace Sys2Proof

open Machine

/-- Settles O40: reset is the reset of the reset state, whose default configuration is legal. -/
theorem resetMeetsTheInvariant : Obligations.ResetMeetsTheInvariant := by
  unfold Obligations.ResetMeetsTheInvariant
  exact inv_applyReset (s := .reset) (by decide) fun mv hmv => by cases hmv

/-- Settles O41: case by case of the step; in RUN the step's outcome says how the parse went on or how it ended. -/
theorem stepKeepsTheInvariant : Obligations.StepKeepsTheInvariant := by
  unfold Obligations.StepKeepsTheInvariant
  intro s t h hstep
  have hrest : ∀ {mv rest}, s.host = mv :: rest → HostWf rest :=
    fun hhost mv' hmv => h.hostWf mv' (hhost ▸ List.mem_cons_of_mem _ hmv)
  obtain ⟨-, -, rfl⟩ | ⟨hrun, -, hseq⟩ | ⟨w, c, rest, hhost, -, -, hlen, rfl⟩ | ⟨w, c, rest, hhost, -, -, -, rfl⟩ |
    ⟨w, rest, hhost, rfl⟩ | ⟨w, cfg, rest, hhost, hquiet, hcfg, rfl⟩ := step_cases hstep
  · exact h
  · exact inv_sequencerStep h hrun hseq
  · obtain ⟨hinput, -, -⟩ := h.hostWf _ (hhost ▸ List.mem_cons_self) c rfl
    rw [hlen]
    exact inv_startEncode h.cfgLegal h.inputWf hinput (hrest hhost)
  · exact inv_of_done h.cfgLegal h.inputWf (hrest hhost) rfl (by decide : Status.success ≠ .none)
      fun hno => absurd rfl hno
  · exact inv_applyReset h.cfgLegal (hrest hhost)
  · exact { h with cfgLegal := hcfg, hostWf := hrest hhost, runs := fun hrun => absurd hrun hquiet }

/-- Settles O42: a running block goes on, a quiet one waits, and a move of the host is no fault. -/
theorem invariantStatesNeverFault : Obligations.InvariantStatesNeverFault := by
  unfold Obligations.InvariantStatesNeverFault
  intro s h
  have hseq : ∃ t, sequencerStep s = .next t := by
    by_cases hp : s.phase = .run
    · obtain ⟨flushed, block, hruns⟩ := h.runs hp
      obtain ⟨t, hstep, -⟩ := hruns.sequencerStep_outcome h.cfgLegal hp
      exact ⟨t, hstep⟩
    · exact ⟨s, sequencerStep_of_quiet hp⟩
  refine ⟨fun e hfault => ?_, fun hrun hsilent => by rwa [step_of_silent hrun hsilent]⟩
  obtain hstep | ⟨mv, rest, -, hstep⟩ := step_eq_or s
  · obtain ⟨t, ht⟩ := hseq
    rw [hstep, ht] at hfault
    cases hfault
  · exact hostEvent_ne_fault _ _ e (hstep ▸ hfault)

/-- Settles O39: a step that stays in RUN took the parse's next token, which is valid at the cursor. -/
theorem tokenStepMovesTheCursorForward : Obligations.TokenStepMovesTheCursorForward := by
  unfold Obligations.TokenStepMovesTheCursorForward
  intro s t h hrun hsilent hlt hstep hrun'
  rw [step_of_silent hrun hsilent] at hstep
  have hframe := sequencerStep_frame hrun hstep
  obtain ⟨flushed, block, hruns⟩ := h.runs hrun
  obtain ⟨t', hstep', houtcome⟩ := hruns.sequencerStep_outcome h.cfgLegal hrun
  obtain rfl : t' = t := by
    rw [hstep'] at hstep
    injection hstep
  cases houtcome with
  | token flushed' block' _ _ hruns' hcursor hcount =>
    have hone := (valid_consumed (hruns.nextToken_valid hlt)).1
    exact ⟨hcursor, by omega, hruns'.cursorLe, hframe.len, hcount, hruns'.countLe⟩
  | success hdone =>
    rw [hdone] at hrun'
    cases hrun'
  | failure hdone =>
    rw [hdone] at hrun'
    cases hrun'

end Sys2Proof
end

section
/-! A whole ENCODE, from its START to its response (spec/41_token_packer.md R140, R141). -/
namespace Sys2Proof.Machine

theorem response_of_success {t : State} (hdone : t.phase = .done) (hstatus : t.status = .success) :
    response t = some (.success t.out t.out.length) := by
  rw [response, if_pos hdone, hstatus]

theorem response_of_allocFailure {t : State} (hdone : t.phase = .done) (hstatus : t.status = .allocFailure) :
    response t = some .allocFailure := by
  rw [response, if_pos hdone, hstatus]

theorem run_one {s t : State} (h : step s = .next t) : Host.Core.run core 1 s = .next t := run_succ h 0

theorem encodeResponse_of_fits {cfg : Config} {input : Memory} (hsize : input.size ≤ maxInput)
    (h : fits cfg (encodedStream cfg input).length = true) :
    encodeResponse cfg input = .success (encodedStream cfg input) (encodedStream cfg input).length := by
  rw [encodeResponse, if_neg (Nat.not_lt.2 hsize), if_pos h]

theorem encodeResponse_of_not_fits {cfg : Config} {input : Memory} (hsize : input.size ≤ maxInput)
    (h : ¬fits cfg (encodedStream cfg input).length = true) : encodeResponse cfg input = .allocFailure := by
  rw [encodeResponse, if_neg (Nat.not_lt.2 hsize), if_neg h]

/-- The stream has a header, so where 4 bytes do not fit it does not. -/
theorem stream_not_fits_of_header {cfg : Config} (input : Memory) (h : fits cfg 4 = false) :
    ¬fits cfg (encodedStream cfg input).length = true := by
  refine fun hfits => ?_
  have hheader : fits cfg 4 = true := fits_mono (by rw [encodedStream_length]; omega) hfits
  rw [h] at hheader
  cases hheader

/-- A running block whose host waits reaches its response within a step for each input byte left, and one more. -/
theorem State.RunsWith.reaches_response {s : State} {flushed block : List Token} (h : s.RunsWith flushed block)
    (hlegal : s.cfg.Legal) (hp : s.phase = .run) (hwait : ∀ mv ∈ s.host, mv.wait = true) :
    ∃ k t, 1 ≤ k ∧ k ≤ s.len.toNat - s.cursor.toNat + 1 ∧ Host.Core.run core k s = .next t ∧ t.phase = .done ∧
      t.host = s.host ∧ response t = some (encodeResponse s.cfg s.input) := by
  induction hleft : s.len.toNat - s.cursor.toNat using Nat.strong_induction_on generalizing s flushed block with
  | _ left ih =>
    have hsize : s.input.size ≤ maxInput := h.lenIsSize ▸ Nat.le_of_lt_succ s.len.isLt
    obtain ⟨t, hseq, houtcome⟩ := h.sequencerStep_outcome hlegal hp
    have hframe := sequencerStep_frame hp hseq
    have hstep : step s = .next t :=
      (step_of_running hp fun mv rest hhost => hwait mv (hhost ▸ List.mem_cons_self)).trans hseq
    cases houtcome with
    | token flushed' block' hlt hrun hruns hcursor =>
      have hone := (valid_consumed (h.nextToken_valid hlt)).1
      have hlen : t.len.toNat = s.len.toNat := by rw [hframe.len]
      obtain ⟨k, t', -, hk, hrun', hdone, hhost, hresponse⟩ := ih (t.len.toNat - t.cursor.toNat) (by omega) hruns
        (hframe.cfg ▸ hlegal) hrun (hframe.host ▸ hwait) rfl
      rw [hframe.cfg, hframe.input] at hresponse
      exact ⟨k + 1, t', by omega, by omega, (run_succ hstep k).trans hrun', hdone, hhost.trans hframe.host, hresponse⟩
    | success hdone hstatus hout hfits =>
      refine ⟨1, t, le_rfl, by omega, run_one hstep, hdone, hframe.host, ?_⟩
      rw [response_of_success hdone hstatus, encodeResponse_of_fits hsize hfits, hout]
    | failure hdone hstatus _ hfits =>
      refine ⟨1, t, le_rfl, by omega, run_one hstep, hdone, hframe.host, ?_⟩
      rw [response_of_allocFailure hdone hstatus, encodeResponse_of_not_fits hsize hfits]

/-- An ENCODE at the port, outside RUN and with `N = |IN|`: the step is its START. -/
theorem step_of_encode {s : State} {wait : Bool} {c : HostCommand} {rest : List HostMove}
    (hhost : s.host = ⟨wait, .command c⟩ :: rest) (hquiet : s.phase ≠ .run) (hcode : c.code = 0x01)
    (hlen : c.n = c.input.size) :
    step s = .next (startEncode c.input c.input.size { s with host := rest }) := by
  rw [step_of_move hhost fun _ => hquiet]
  change issue c _ = _
  rw [issue_encode hcode, hlen]
  exact exec_encode_of_quiet (s := { s with host := rest }) hquiet c.input

end Sys2Proof.Machine

namespace Sys2Proof

open Machine

/-- Settles O43: START ends the operation at once, or begins a block that runs with the invariant and reaches its
response. -/
theorem encodeRunsToItsResponse : Obligations.EncodeRunsToItsResponse := by
  unfold Obligations.EncodeRunsToItsResponse
  intro s wait c rest hhost hwait hquiet hlegal hcode hlen
  have hstep := step_of_encode hhost hquiet hcode hlen
  obtain ⟨hsize, hstart⟩ | ⟨hsize, hfits, hstart⟩ | ⟨hsize, hfits, hstart⟩ :=
    startEncode_cases c.input c.input.size { s with host := rest }
  · rw [hstart] at hstep
    refine ⟨1, _, le_rfl, by omega, run_one hstep, rfl, rfl, ?_⟩
    rw [encodeResponse, if_pos hsize]
    rfl
  · rw [hstart] at hstep
    obtain ⟨k, t, -, hk, hrun, hdone, hhost', hresponse⟩ :=
      (runsWith_start c.input { s with host := rest } hsize hfits).reaches_response hlegal rfl hwait
    have hbound : k ≤ c.input.size + 1 := by
      refine hk.trans (Nat.succ_le_succ (Nat.sub_le_of_le_add ?_))
      exact (BitVec.toNat_ofNat c.input.size 24).le.trans ((Nat.mod_le _ _).trans (Nat.le_add_right _ _))
    exact ⟨k + 1, t, by omega, by omega, (run_succ hstep k).trans hrun, hdone, hhost', hresponse⟩
  · rw [hstart] at hstep
    refine ⟨1, _, le_rfl, by omega, run_one hstep, rfl, rfl, ?_⟩
    rw [encodeResponse_of_not_fits hsize (stream_not_fits_of_header c.input hfits)]
    rfl

end Sys2Proof
end

section
/-! Two blocks after the same ENCODE (spec/70_reset_and_hazards.md R191). -/
namespace Sys2Proof.Machine

/-- The registers no step of the running block reads: `status` and the result registers. -/
def withHistory (status : Status) (mfLen : BitVec 17) (mfDisp : BitVec 13) (s : State) : State :=
  { s with status := status, mfLen := mfLen, mfDisp := mfDisp }

/-- Two blocks that answer alike: while they run they differ at most in what earlier operations left in `status` and
the result registers; outside RUN they agree in all that a host or a later command reads. -/
structure Alike (s s' : State) : Prop where
  phase : s'.phase = s.phase
  out : s'.out = s.out
  cfg : s'.cfg = s.cfg
  host : s'.host = s.host
  status : s.phase ≠ .run → s'.status = s.status
  running : s.phase = .run → ∃ status mfLen mfDisp, s' = withHistory status mfLen mfDisp s

theorem Alike.of_running {s : State} (hp : s.phase = .run) (status : Status) (mfLen : BitVec 17) (mfDisp : BitVec 13) :
    Alike s (withHistory status mfLen mfDisp s) :=
  ⟨rfl, rfl, rfl, rfl, fun hquiet => absurd hp hquiet, fun _ => ⟨status, mfLen, mfDisp, rfl⟩⟩

theorem Alike.of_quiet {s s' : State} (hp : s.phase ≠ .run) (hphase : s'.phase = s.phase) (hout : s'.out = s.out)
    (hcfg : s'.cfg = s.cfg) (hhost : s'.host = s.host) (hstatus : s'.status = s.status) : Alike s s' :=
  ⟨hphase, hout, hcfg, hhost, fun _ => hstatus, fun hrun => absurd hrun hp⟩

theorem Alike.response_eq {s s' : State} (h : Alike s s') : response s' = response s := by
  unfold response
  rw [h.phase, h.out]
  split
  · rename_i hdone
    rw [h.status (by rw [hdone]; decide)]
  · rfl

/-! The block's own step -/

theorem emitToken_withHistory {s t t' : State} {status : Status} {mfLen : BitVec 17} {mfDisp : BitVec 13}
    (h : emitToken s = .next t) (h' : emitToken (withHistory status mfLen mfDisp s) = .next t') :
    t' = withHistory status mfLen mfDisp t := by
  obtain ⟨-, -, ⟨hshort, rfl⟩ | ⟨hlong, -, rfl⟩⟩ := emitToken_cases h
  · obtain ⟨-, -, ⟨-, rfl⟩ | ⟨hlong', -⟩⟩ := emitToken_cases h'
    · rfl
    · exact absurd hshort (Nat.not_lt.2 hlong')
  · obtain ⟨-, -, ⟨hshort', -⟩ | ⟨-, -, rfl⟩⟩ := emitToken_cases h'
    · exact absurd hshort' (Nat.not_lt.2 hlong)
    · rfl

theorem alike_of_emitToken {s t t' : State} {status : Status} {mfLen : BitVec 17} {mfDisp : BitVec 13}
    (hp : s.phase = .run) (h : emitToken s = .next t) (h' : emitToken (withHistory status mfLen mfDisp s) = .next t') :
    Alike t t' := by
  obtain rfl := emitToken_withHistory h h'
  refine .of_running ?_ status mfLen mfDisp
  obtain ⟨bytes, flag, cursor, count, rfl⟩ := emitToken_eq_next h
  exact hp

/-- No condition of the running block's step reads what earlier operations left. -/
theorem sequencerStep_withHistory {s : State} (hp : s.phase = .run) (status : Status) (mfLen : BitVec 17)
    (mfDisp : BitVec 13) : sequencerStep (withHistory status mfLen mfDisp s) =
    if s.cursor.toNat < s.len.toNat then
      if s.blkCount.toNat = slots then
        if hasRoom (blockImage s) s then emitToken (withHistory status mfLen mfDisp (flushedState s))
        else .next (withHistory .allocFailure mfLen mfDisp (failWith .allocFailure s))
      else emitToken (withHistory status mfLen mfDisp s)
    else if s.cursor.toNat = s.len.toNat then
      if s.blkCount = 0 then .next (withHistory .success mfLen mfDisp (succeed s))
      else if hasRoom (blockImage s) s then
        .next (withHistory .success mfLen mfDisp (succeed (flushedState s)))
      else .next (withHistory .allocFailure mfLen mfDisp (failWith .allocFailure s))
    else .fault .noStepEnabled :=
  sequencerStep_running hp

theorem alike_of_done {t : State} (hp : t.phase = .done) {status : Status} (hstatus : status = t.status)
    (mfLen : BitVec 17) (mfDisp : BitVec 13) : Alike t (withHistory status mfLen mfDisp t) :=
  .of_quiet (by rw [hp]; decide) rfl rfl rfl rfl hstatus

theorem Alike.sequencerStep {s s' t t' : State} (h : Alike s s') (ht : sequencerStep s = .next t)
    (ht' : sequencerStep s' = .next t') : Alike t t' := by
  by_cases hp : s.phase = .run
  · obtain ⟨status, mfLen, mfDisp, rfl⟩ := h.running hp
    rw [sequencerStep_running hp] at ht
    rw [sequencerStep_withHistory hp] at ht'
    split_ifs at ht ht' with hlt hfull hroom hend hempty hroom
    · exact alike_of_emitToken (s := flushedState s) hp ht ht'
    · cases ht
      cases ht'
      exact alike_of_done rfl rfl mfLen mfDisp
    · exact alike_of_emitToken hp ht ht'
    · cases ht
      cases ht'
      exact alike_of_done rfl rfl mfLen mfDisp
    · cases ht
      cases ht'
      exact alike_of_done rfl rfl mfLen mfDisp
    · cases ht
      cases ht'
      exact alike_of_done rfl rfl mfLen mfDisp
  · rw [sequencerStep_of_quiet hp] at ht
    rw [sequencerStep_of_quiet (h.phase ▸ hp)] at ht'
    cases ht
    cases ht'
    exact h

/-! The host's moves -/

theorem alike_outAppend {s : State} (hp : s.phase = .run) (bytes : List Byte) (status : Status) (mfLen : BitVec 17)
    (mfDisp : BitVec 13) : Alike (outAppend bytes s) (outAppend bytes (withHistory status mfLen mfDisp s)) := by
  cases hroom : hasRoom bytes s with
  | true =>
    have hroom' : hasRoom bytes (withHistory status mfLen mfDisp s) = true := hroom
    rw [outAppend_of_room hroom, outAppend_of_room hroom']
    exact .of_running (s := { s with out := s.out ++ bytes }) hp status mfLen mfDisp
  | false =>
    have hroom' : hasRoom bytes (withHistory status mfLen mfDisp s) = false := hroom
    rw [outAppend_of_no_room hroom, outAppend_of_no_room hroom']
    exact alike_of_done (t := failWith .allocFailure s) rfl rfl mfLen mfDisp

/-- START reads the configuration and the host's moves only. -/
theorem alike_startEncode {s s' : State} (input : Memory) (n : Nat) (hcfg : s'.cfg = s.cfg)
    (hhost : s'.host = s.host) : Alike (startEncode input n s) (startEncode input n s') := by
  unfold startEncode
  split
  · exact .of_quiet (by simp) rfl rfl hcfg hhost rfl
  · have hbegin : beginEncode input n s' = withHistory s'.status s'.mfLen s'.mfDisp (beginEncode input n s) := by
      rw [withHistory, beginEncode, beginEncode, hcfg, hhost]
    rw [hbegin]
    exact alike_outAppend rfl _ s'.status s'.mfLen s'.mfDisp

theorem configure_eq_next {cfg : Config} {s t : State} (h : configure cfg s = .next t) :
    s.phase ≠ .run ∧ t = { s with cfg := cfg } := by
  unfold configure at h
  split at h
  · cases h
  · split at h
    · cases h
      exact ⟨‹_›, rfl⟩
    · cases h

theorem Alike.hostEvent {s s' t t' : State} (h : Alike s s') {e : HostEvent} (ht : hostEvent e s = .next t)
    (ht' : hostEvent e s' = .next t') : Alike t t' := by
  cases e with
  | command c =>
    change issue c s = _ at ht
    change issue c s' = _ at ht'
    by_cases h1 : c.code = 0x01
    · rw [issue_encode h1] at ht ht'
      obtain ⟨-, -, rfl⟩ := execEncode_eq_next ht
      obtain ⟨-, -, rfl⟩ := execEncode_eq_next ht'
      exact alike_startEncode c.input c.n h.cfg h.host
    · by_cases h2 : c.code = 0x02
      · rw [issue_findMatch h2] at ht ht'
        obtain ⟨-, -, rfl⟩ := execFindMatch_eq_next ht
        obtain ⟨-, -, rfl⟩ := execFindMatch_eq_next ht'
        exact .of_quiet (by simp) rfl h.out h.cfg h.host rfl
      · rw [issue_unknown h1 h2] at ht
        cases ht
  | reset =>
    cases ht
    cases ht'
    exact .of_quiet (by simp) rfl rfl h.cfg h.host rfl
  | configure cfg =>
    obtain ⟨hquiet, rfl⟩ := configure_eq_next ht
    obtain ⟨-, rfl⟩ := configure_eq_next ht'
    exact .of_quiet hquiet h.phase h.out rfl h.host (h.status hquiet)

/-- Taking a move off both lists. -/
theorem Alike.withHost {s s' : State} (h : Alike s s') (rest : List HostMove) :
    Alike { s with host := rest } { s' with host := rest } where
  phase := h.phase
  out := h.out
  cfg := h.cfg
  host := rfl
  status := h.status
  running := fun hp => by
    obtain ⟨status, mfLen, mfDisp, rfl⟩ := h.running hp
    exact ⟨status, mfLen, mfDisp, rfl⟩

theorem Alike.step {s s' t t' : State} (h : Alike s s') (ht : step s = .next t) (ht' : step s' = .next t') :
    Alike t t' := by
  unfold Machine.step nextStep at ht ht'
  rw [h.host] at ht'
  cases hhost : s.host with
  | nil =>
    rw [hhost] at ht ht'
    exact h.sequencerStep ht ht'
  | cons mv rest =>
    have hheld : heldBack mv s' = heldBack mv s := by rw [heldBack, heldBack, h.phase]
    simp only [hhost] at ht
    simp only [hhost, hheld] at ht'
    split_ifs at ht ht'
    · exact h.sequencerStep ht ht'
    · exact (h.withHost rest).hostEvent ht ht'

/-! Runs -/

theorem run_succ_eq_next {s t : State} {k : Nat} (h : Host.Core.run core (k + 1) s = .next t) :
    ∃ u, step s = .next u ∧ Host.Core.run core k u = .next t := by
  cases hstep : step s with
  | next u => exact ⟨u, rfl, (run_succ hstep k).symm.trans h⟩
  | fault e =>
    have hstep' : core.step s = .fault e := hstep
    simp [Host.Core.run, hstep'] at h
  | refused e =>
    have hstep' : core.step s = .refused e := hstep
    simp [Host.Core.run, hstep'] at h

theorem Alike.run {k : Nat} {s s' t t' : State} (h : Alike s s') (ht : Host.Core.run core k s = .next t)
    (ht' : Host.Core.run core k s' = .next t') : Alike t t' := by
  induction k generalizing s s' with
  | zero =>
    cases ht
    cases ht'
    exact h
  | succ k ih =>
    obtain ⟨u, hu, ht⟩ := run_succ_eq_next ht
    obtain ⟨u', hu', ht'⟩ := run_succ_eq_next ht'
    exact ih (h.step hu hu') ht ht'

/-- An ENCODE taken at the port outside RUN that goes on has taken its START. -/
theorem step_of_encode_eq_next {s t : State} {wait : Bool} {c : HostCommand} {rest : List HostMove}
    (hhost : s.host = ⟨wait, .command c⟩ :: rest) (hquiet : s.phase ≠ .run) (hcode : c.code = 0x01)
    (h : step s = .next t) : t = startEncode c.input c.n { s with host := rest } := by
  rw [step_of_move hhost fun _ => hquiet] at h
  change issue c _ = _ at h
  rw [issue_encode hcode] at h
  exact (execEncode_eq_next h).2.2

end Sys2Proof.Machine

namespace Sys2Proof

open Machine

/-- Settles O44: START makes the two blocks alike, and every step they both take keeps them so. -/
theorem responsesDoNotDependOnEarlierOperations : Obligations.ResponsesDoNotDependOnEarlierOperations := by
  unfold Obligations.ResponsesDoNotDependOnEarlierOperations
  intro s s' wait wait' c rest k t t' hhost hhost' hquiet hquiet' hcfg hcode ht ht'
  obtain ⟨u, hu, ht⟩ := run_succ_eq_next ht
  obtain ⟨u', hu', ht'⟩ := run_succ_eq_next ht'
  obtain rfl := step_of_encode_eq_next hhost hquiet hcode hu
  obtain rfl := step_of_encode_eq_next hhost' hquiet' hcode hu'
  have hstart : Alike (startEncode c.input c.n { s with host := rest })
      (startEncode c.input c.n { s' with host := rest }) :=
    alike_startEncode c.input c.n hcfg.symm rfl
  have halike := hstart.run ht ht'
  exact ⟨halike.phase.symm, halike.out.symm, halike.response_eq.symm⟩

end Sys2Proof
end
